-- ==== Sys2Proof/Word.lean ====
section
/-! DEFINITION. The words of the xrmon/sha CORE: bytes, the two word widths of the two families, bus addresses and bus data (spec 00_scope.md R5, R6). -/

namespace Sys2Proof

/-- One byte of a message or of the message buffer (R9). -/
abbrev Byte := BitVec 8

/-- A word of the 32-bit family, `W32` = 32; also the width of every host-visible register and of the bus data, `BUS_W` = 32 (R5, R30, R70). -/
abbrev Word32 := BitVec 32

/-- A word of the 64-bit family, `W64` = 64 (R5). -/
abbrev Word64 := BitVec 64

/-- A byte address on the host bus, `ADDR_W` = 16 (R5, R70). -/
abbrev Addr := BitVec 16

end Sys2Proof
end

