-- ==== Sys2Proof/Machine/EngineTypes.lean ====
section
/-! DEFINITION. The data the compression engines work on: blocks, state vectors and working variables (spec 00_scope.md R13; 10_state.md R42, R43). -/

namespace Sys2Proof.Machine

/-- A Block: "an ordered sequence of exactly 16 Words" (R13). -/
abbrev Block (w : Nat) := Vector (BitVec w) 16

/-- The State Vector of SHA-1, H[0..5) (R42). -/
structure Vec5 (w : Nat) where
  h0 : BitVec w
  h1 : BitVec w
  h2 : BitVec w
  h3 : BitVec w
  h4 : BitVec w
  deriving DecidableEq, Repr, Inhabited

/-- The State Vector of the SHA-2 variants, H[0..8) (R42). -/
structure Vec8 (w : Nat) where
  h0 : BitVec w
  h1 : BitVec w
  h2 : BitVec w
  h3 : BitVec w
  h4 : BitVec w
  h5 : BitVec w
  h6 : BitVec w
  h7 : BitVec w
  deriving DecidableEq, Repr, Inhabited

/-- The five working variables of SHA-1 (R43). -/
structure Vars5 (w : Nat) where
  a : BitVec w
  b : BitVec w
  c : BitVec w
  d : BitVec w
  e : BitVec w
  deriving DecidableEq, Repr, Inhabited

/-- The eight working variables of SHA-2 (R43). -/
structure Vars8 (w : Nat) where
  a : BitVec w
  b : BitVec w
  c : BitVec w
  d : BitVec w
  e : BitVec w
  f : BitVec w
  g : BitVec w
  h : BitVec w
  deriving DecidableEq, Repr, Inhabited

/-- The internal registers of an engine of width `w`, as they stand BETWEEN commands (R42, R43, R49): the state vector, the working variables and the
message schedule. SHA-1 uses the first five words of `h` and of `vars`, SHA-224/256 the first 64 entries of `sched`. No command reads them before writing
them (93_implementation_defined.md U8). -/
structure EngineRegs (w : Nat) where
  h : Vec8 w
  vars : Vars8 w
  sched : Vector (BitVec w) 80
  deriving DecidableEq, Repr, Inhabited

/-- H as the list H[0], H[1], … -/
def Vec5.toList {w : Nat} (v : Vec5 w) : List (BitVec w) :=
  [v.h0, v.h1, v.h2, v.h3, v.h4]

/-- H as the list H[0], H[1], … -/
def Vec8.toList {w : Nat} (v : Vec8 w) : List (BitVec w) :=
  [v.h0, v.h1, v.h2, v.h3, v.h4, v.h5, v.h6, v.h7]

end Sys2Proof.Machine
end

