-- ==== Sys2Proof/Machine/Compress.lean ====
section
/-! DEFINITION. The compression loop shared by every variant (spec 42_engine32.md R210), and the reading of a schedule under construction (R211, R216, R260). -/

namespace Sys2Proof.Machine

/-- Compress: for each block in order, the schedule, the working variables from H, the rounds, and the fold back into H (R210). -/
def compress {block sched hvec vars : Type} (schedule : block → sched) (init : hvec → vars) (rounds : sched → vars → vars)
    (fold : hvec → vars → hvec) (blocks : List block) (iv : hvec) : hvec :=
  blocks.foldl (fun h b => fold h (rounds (schedule b) (init h))) iv

/-- W[t−d], where `ws` is W[t−1], W[t−2], …, W[0]: the entries already computed, newest first. Used with 1 ≤ d ≤ 16 ≤ t only, so that the
default value is never read: every entry is written before it is read (R43; notes/assumptions/12.md). -/
def back {w : Nat} (ws : List (BitVec w)) (d : Nat) : BitVec w :=
  ws.getD (d - 1) 0

/-- `n` more entries of a schedule, in increasing t, each from the ones before it by the recurrence `next` (R211, R216, R260, R376). -/
def extend {w : Nat} (next : List (BitVec w) → BitVec w) : Nat → List (BitVec w) → List (BitVec w)
  | 0, ws => ws
  | n + 1, ws => extend next n (next ws :: ws)

/-- A message schedule W[0 .. 16 + n): the block's words, then `n` entries by the recurrence (R211, R216, R260). -/
def scheduleOf {w : Nat} (next : List (BitVec w) → BitVec w) (n : Nat) (b : Block w) : List (BitVec w) :=
  (extend next n b.toList.reverse).reverse

end Sys2Proof.Machine
end

