-- ==== Sys2Proof/Machine/Primitives.lean ====
section
/-! DEFINITION. The bit primitives of both engines (spec 40_primitives.md R130 to R147). Modular addition ADD_w (R147, R7) is `+` on bit vectors of width w, which wraps silently. -/

namespace Sys2Proof.Machine

/-- SHR_w(x, n), logical right shift; only for n < w (R130). -/
def shr {w : Nat} (x : BitVec w) (n : Nat) (_h : n < w := by decide) : BitVec w :=
  x >>> n

/-- ROTR_w(x, n); only for n in [1, w−1]: the call itself demands the proof, so a rotate by 0 or by w and more is given no value (R131, R133). -/
def rotr {w : Nat} (x : BitVec w) (n : Nat) (_h : 1 ≤ n ∧ n < w := by decide) : BitVec w :=
  (x >>> n) ||| (x <<< (w - n))

/-- ROTL_w(x, n); only for n in [1, w−1] (R132, R133). -/
def rotl {w : Nat} (x : BitVec w) (n : Nat) (_h : 1 ≤ n ∧ n < w := by decide) : BitVec w :=
  (x <<< n) ||| (x >>> (w - n))

/-- SHR as a general function of its amount: refused unless n < w (R130, R133). -/
def shr? {w : Nat} (x : BitVec w) (n : Nat) : Option (BitVec w) :=
  if h : n < w then some (shr x n h) else none

/-- ROTR as a general function of its amount: refused for n = 0 and n ≥ w (R133; 93_implementation_defined.md U1). -/
def rotr? {w : Nat} (x : BitVec w) (n : Nat) : Option (BitVec w) :=
  if h : 1 ≤ n ∧ n < w then some (rotr x n h) else none

/-- ROTL as a general function of its amount: refused for n = 0 and n ≥ w (R133; 93_implementation_defined.md U1). -/
def rotl? {w : Nat} (x : BitVec w) (n : Nat) : Option (BitVec w) :=
  if h : 1 ≤ n ∧ n < w then some (rotl x n h) else none

/-- Ch_w (R134). -/
def ch {w : Nat} (x y z : BitVec w) : BitVec w :=
  (x &&& y) ^^^ (~~~x &&& z)

/-- Maj_w (R135). -/
def maj {w : Nat} (x y z : BitVec w) : BitVec w :=
  (x &&& y) ^^^ (x &&& z) ^^^ (y &&& z)

/-- Parity_32 (R136). -/
def parity (x y z : Word32) : Word32 :=
  x ^^^ y ^^^ z

/-- Σ0, 32-bit (R137). -/
def bigSigma0_32 (x : Word32) : Word32 :=
  rotr x 2 ^^^ rotr x 13 ^^^ rotr x 22

/-- Σ1, 32-bit (R138). -/
def bigSigma1_32 (x : Word32) : Word32 :=
  rotr x 6 ^^^ rotr x 11 ^^^ rotr x 25

/-- σ0, 32-bit (R139). -/
def smallSigma0_32 (x : Word32) : Word32 :=
  rotr x 7 ^^^ rotr x 18 ^^^ shr x 3

/-- σ1, 32-bit (R140). -/
def smallSigma1_32 (x : Word32) : Word32 :=
  rotr x 17 ^^^ rotr x 19 ^^^ shr x 10

/-- Σ0, 64-bit (R141). -/
def bigSigma0_64 (x : Word64) : Word64 :=
  rotr x 28 ^^^ rotr x 34 ^^^ rotr x 39

/-- Σ1, 64-bit (R142). -/
def bigSigma1_64 (x : Word64) : Word64 :=
  rotr x 14 ^^^ rotr x 18 ^^^ rotr x 41

/-- σ0, 64-bit (R143). -/
def smallSigma0_64 (x : Word64) : Word64 :=
  rotr x 1 ^^^ rotr x 8 ^^^ shr x 7

/-- σ1, 64-bit (R144). -/
def smallSigma1_64 (x : Word64) : Word64 :=
  rotr x 19 ^^^ rotr x 61 ^^^ shr x 6

/-- F(x, y, z, t), the SHA-1 selector. The round index has the type of the indices below 80, so a t outside [0, 80) cannot be given (R145). -/
def fSel (x y z : Word32) (t : Fin 80) : Word32 :=
  if t.val < 20 then ch x y z
  else if t.val < 40 then parity x y z
  else if t.val < 60 then maj x y z
  else parity x y z

end Sys2Proof.Machine
end

