-- ==== Sys2Proof/Machine/Bytes.lean ====
section
/-! DEFINITION. Byte order, decided once: the big-endian encoding `BE_k`, its inverse `BEval`, and the bits of a byte string, most significant bit of each byte first (spec 00_scope.md R9). -/

namespace Sys2Proof.Machine

/-- `BE_k(v)`: the k-byte big-endian encoding of v; byte 0 holds `v[8k−1:8k−8]`, byte k−1 holds `v[7:0]` (R9). -/
def be : Nat → Nat → List Byte
  | 0, _ => []
  | k + 1, v => BitVec.ofNat 8 (v / 256 ^ k) :: be k v

/-- `BEval(b)`: the number a byte string encodes, first byte most significant (R9). -/
def beVal (bs : List Byte) : Nat :=
  bs.foldl (fun acc b => acc * 256 + b.toNat) 0

/-- The bits of one byte, most significant first (R9, bit order from 93_implementation_defined.md G2). -/
def byteBits (b : Byte) : List Bool :=
  [b.getMsbD 0, b.getMsbD 1, b.getMsbD 2, b.getMsbD 3, b.getMsbD 4, b.getMsbD 5, b.getMsbD 6, b.getMsbD 7]

/-- The bits of a byte string in sequence order (R9). -/
def bytesBits (bs : List Byte) : List Bool :=
  bs.flatMap byteBits

/-- The `k`-bit big-endian encoding of v, most significant bit first (R183). -/
def beBits : Nat → Nat → List Bool
  | 0, _ => []
  | k + 1, v => v.testBit k :: beBits k v

end Sys2Proof.Machine
end

