-- ==== Sys2Proof/Machine/Scheduler.lean ====
section
/-! DEFINITION. The message scheduler: padding and block parsing (spec 41_scheduler.md R180 to R190). Both work on a copy of the message, a list of bytes (R190). -/

namespace Sys2Proof.Machine

/-- K, the number of zero bits: the least K ≥ 0 with L + 1 + K ≡ blockBits − lengthFieldBits (mod blockBits) (R182). -/
def zeroBits (blockBits lengthFieldBits L : Nat) : Nat :=
  (((blockBits : Int) - lengthFieldBits - (L + 1)) % blockBits).toNat

/-- Pad at bit level, as the source's three steps give it: a 1 bit, K zero bits, then L on exactly lengthFieldBits bits (R181 to R183). -/
def padBits (blockBits lengthFieldBits : Nat) (m : List Bool) : List Bool :=
  m ++ [true] ++ List.replicate (zeroBits blockBits lengthFieldBits m.length) false ++ beBits lengthFieldBits m.length

/-- Z32 = (55 − n) mod 64, a value in [0, 64) (R184). -/
def zeroBytes32 (n : Nat) : Nat :=
  ((55 - (n : Int)) % 64).toNat

/-- Z64 = (111 − n) mod 128, a value in [0, 128) (R184). -/
def zeroBytes64 (n : Nat) : Nat :=
  ((111 - (n : Int)) % 128).toNat

/-- Pad32 at byte level (R184). -/
def pad32 (m : List Byte) : List Byte :=
  m ++ [0x80#8] ++ List.replicate (zeroBytes32 m.length) 0#8 ++ be 8 (8 * m.length)

/-- Pad64 at byte level (R184). -/
def pad64 (m : List Byte) : List Byte :=
  m ++ [0x80#8] ++ List.replicate (zeroBytes64 m.length) 0#8 ++ be 16 (8 * m.length)

/-- N32(n), the number of blocks of a padded n-byte message, 32-bit family (R185). -/
def blockCount32 (n : Nat) : Nat :=
  (n + 8) / 64 + 1

/-- N64(n), the number of blocks of a padded n-byte message, 64-bit family (R185). -/
def blockCount64 (n : Nat) : Nat :=
  (n + 16) / 128 + 1

/-- Four bytes a word, each word big-endian, in message order (R187, w = 32). -/
def words32 : List Byte → List Word32
  | b0 :: b1 :: b2 :: b3 :: rest => BitVec.ofNat 32 (beVal [b0, b1, b2, b3]) :: words32 rest
  | _ => []

/-- Eight bytes a word, each word big-endian, in message order (R187, w = 64). -/
def words64 : List Byte → List Word64
  | b0 :: b1 :: b2 :: b3 :: b4 :: b5 :: b6 :: b7 :: rest => BitVec.ofNat 64 (beVal [b0, b1, b2, b3, b4, b5, b6, b7]) :: words64 rest
  | _ => []

/-- Consecutive words, sixteen a Block. No partial block remains of a padded message (R187). -/
def toBlocks {w : Nat} : List (BitVec w) → List (Block w)
  | w0 :: w1 :: w2 :: w3 :: w4 :: w5 :: w6 :: w7 :: w8 :: w9 :: w10 :: w11 :: w12 :: w13 :: w14 :: w15 :: rest =>
      #v[w0, w1, w2, w3, w4, w5, w6, w7, w8, w9, w10, w11, w12, w13, w14, w15] :: toBlocks rest
  | _ => []

/-- Parse(P, 32) (R187). -/
def parse32 (p : List Byte) : List (Block 32) :=
  toBlocks (words32 p)

/-- Parse(P, 64) (R187). -/
def parse64 (p : List Byte) : List (Block 64) :=
  toBlocks (words64 p)

end Sys2Proof.Machine
end

