-- ==== Sys2Proof/Machine/Engine32.lean ====
section
/-! DEFINITION. The 32-bit compression engine: SHA-1, SHA-224 and SHA-256 (spec 42_engine32.md R210 to R228). -/

namespace Sys2Proof.Machine

/-- Serialize32: the words of a list, each as BE_4, in order (R221). -/
def serialize32 (ws : List Word32) : List Byte :=
  ws.flatMap fun x => be 4 x.toNat

/-- The SHA-1 schedule recurrence, from W[t−1], W[t−2], … (R211). -/
def sha1Next (ws : List Word32) : Word32 :=
  rotl (back ws 3 ^^^ back ws 8 ^^^ back ws 14 ^^^ back ws 16) 1

/-- Schedule_SHA1, 80 entries (R211). -/
def sha1Schedule (b : Block 32) : List Word32 :=
  scheduleOf sha1Next 64 b

/-- K1_t, one value per band of F (R212). -/
def k1 (t : Fin 80) : Word32 :=
  if t.val < 20 then 0x5A827999#32
  else if t.val < 40 then 0x6ED9EBA1#32
  else if t.val < 60 then 0x8F1BBCDC#32
  else 0xCA62C1D6#32

/-- Init_SHA1 (R213). -/
def sha1Init (h : Vec5 32) : Vars5 32 :=
  ⟨h.h0, h.h1, h.h2, h.h3, h.h4⟩

/-- Round_SHA1 with the schedule entry `wt` = W[t] (R214). -/
def sha1Round (t : Fin 80) (v : Vars5 32) (wt : Word32) : Vars5 32 :=
  { a := rotl v.a 5 + fSel v.b v.c v.d t + v.e + k1 t + wt
    b := v.a
    c := rotl v.b 30
    d := v.c
    e := v.d }

/-- The 80 rounds of one block, t in increasing order, each with its entry of the schedule (R210 step c). -/
def sha1Rounds (w : List Word32) (v : Vars5 32) : Vars5 32 :=
  ((List.finRange 80).zip w).foldl (fun v tw => sha1Round tw.1 v tw.2) v

/-- Fold_SHA1 (R215). -/
def sha1Fold (h : Vec5 32) (v : Vars5 32) : Vec5 32 :=
  ⟨h.h0 + v.a, h.h1 + v.b, h.h2 + v.c, h.h3 + v.d, h.h4 + v.e⟩

/-- IV_SHA1 (R222). -/
def ivSha1 : Vec5 32 :=
  ⟨0x67452301#32, 0xEFCDAB89#32, 0x98BADCFE#32, 0x10325476#32, 0xC3D2E1F0#32⟩

/-- Compress for SHA-1 (R210). -/
def compressSha1 (blocks : List (Block 32)) (iv : Vec5 32) : Vec5 32 :=
  compress sha1Schedule sha1Init sha1Rounds sha1Fold blocks iv

/-- The SHA-224/256 schedule recurrence, from W[t−1], W[t−2], … (R216). -/
def sha256Next (ws : List Word32) : Word32 :=
  smallSigma1_32 (back ws 2) + back ws 7 + smallSigma0_32 (back ws 15) + back ws 16

/-- Schedule_SHA256, 64 entries (R216). -/
def sha256Schedule (b : Block 32) : List Word32 :=
  scheduleOf sha256Next 48 b

/-- K256_t, t = 0 .. 63 (R217). -/
def k256 : List Word32 :=
    [0x428A2F98#32, 0x71374491#32, 0xB5C0FBCF#32, 0xE9B5DBA5#32, 0x3956C25B#32, 0x59F111F1#32, 0x923F82A4#32, 0xAB1C5ED5#32]
  ++ [0xD807AA98#32, 0x12835B01#32, 0x243185BE#32, 0x550C7DC3#32, 0x72BE5D74#32, 0x80DEB1FE#32, 0x9BDC06A7#32, 0xC19BF174#32]
  ++ [0xE49B69C1#32, 0xEFBE4786#32, 0x0FC19DC6#32, 0x240CA1CC#32, 0x2DE92C6F#32, 0x4A7484AA#32, 0x5CB0A9DC#32, 0x76F988DA#32]
  ++ [0x983E5152#32, 0xA831C66D#32, 0xB00327C8#32, 0xBF597FC7#32, 0xC6E00BF3#32, 0xD5A79147#32, 0x06CA6351#32, 0x14292967#32]
  ++ [0x27B70A85#32, 0x2E1B2138#32, 0x4D2C6DFC#32, 0x53380D13#32, 0x650A7354#32, 0x766A0ABB#32, 0x81C2C92E#32, 0x92722C85#32]
  ++ [0xA2BFE8A1#32, 0xA81A664B#32, 0xC24B8B70#32, 0xC76C51A3#32, 0xD192E819#32, 0xD6990624#32, 0xF40E3585#32, 0x106AA070#32]
  ++ [0x19A4C116#32, 0x1E376C08#32, 0x2748774C#32, 0x34B0BCB5#32, 0x391C0CB3#32, 0x4ED8AA4A#32, 0x5B9CCA4F#32, 0x682E6FF3#32]
  ++ [0x748F82EE#32, 0x78A5636F#32, 0x84C87814#32, 0x8CC70208#32, 0x90BEFFFA#32, 0xA4506CEB#32, 0xBEF9A3F7#32, 0xC67178F2#32]

/-- Init_SHA256 (R218). -/
def sha256Init (h : Vec8 32) : Vars8 32 :=
  ⟨h.h0, h.h1, h.h2, h.h3, h.h4, h.h5, h.h6, h.h7⟩

/-- T1 of Round_SHA256 (R219). -/
def sha256T1 (kt : Word32) (v : Vars8 32) (wt : Word32) : Word32 :=
  v.h + bigSigma1_32 v.e + ch v.e v.f v.g + kt + wt

/-- T2 of Round_SHA256 (R219). -/
def sha256T2 (v : Vars8 32) : Word32 :=
  bigSigma0_32 v.a + maj v.a v.b v.c

/-- Round_SHA256 with `kt` = K256_t and `wt` = W[t] (R219). -/
def sha256Round (kt : Word32) (v : Vars8 32) (wt : Word32) : Vars8 32 :=
  { a := sha256T1 kt v wt + sha256T2 v
    b := v.a
    c := v.b
    d := v.c
    e := v.d + sha256T1 kt v wt
    f := v.e
    g := v.f
    h := v.g }

/-- The 64 rounds of one block, t in increasing order, each with its round constant and its entry of the schedule (R210 step c). -/
def sha256Rounds (w : List Word32) (v : Vars8 32) : Vars8 32 :=
  (k256.zip w).foldl (fun v kw => sha256Round kw.1 v kw.2) v

/-- Fold_SHA256 (R220). -/
def sha256Fold (h : Vec8 32) (v : Vars8 32) : Vec8 32 :=
  ⟨h.h0 + v.a, h.h1 + v.b, h.h2 + v.c, h.h3 + v.d, h.h4 + v.e, h.h5 + v.f, h.h6 + v.g, h.h7 + v.h⟩

/-- IV_SHA224 (R223). -/
def ivSha224 : Vec8 32 :=
  ⟨0xC1059ED8#32, 0x367CD507#32, 0x3070DD17#32, 0xF70E5939#32, 0xFFC00B31#32, 0x68581511#32, 0x64F98FA7#32, 0xBEFA4FA4#32⟩

/-- IV_SHA256 (R224). -/
def ivSha256 : Vec8 32 :=
  ⟨0x6A09E667#32, 0xBB67AE85#32, 0x3C6EF372#32, 0xA54FF53A#32, 0x510E527F#32, 0x9B05688C#32, 0x1F83D9AB#32, 0x5BE0CD19#32⟩

/-- Compress for SHA-224 and SHA-256 (R210). -/
def compressSha256 (blocks : List (Block 32)) (iv : Vec8 32) : Vec8 32 :=
  compress sha256Schedule sha256Init sha256Rounds sha256Fold blocks iv

/-- The final State Vector of SHA-1 over a message (R226). -/
def finalSha1 (m : List Byte) : Vec5 32 :=
  compressSha1 (parse32 (pad32 m)) ivSha1

/-- The final State Vector of SHA-224 over a message, before truncation (R225, R227). -/
def finalSha224 (m : List Byte) : Vec8 32 :=
  compressSha256 (parse32 (pad32 m)) ivSha224

/-- The final State Vector of SHA-256 over a message (R228). -/
def finalSha256 (m : List Byte) : Vec8 32 :=
  compressSha256 (parse32 (pad32 m)) ivSha256

/-- Hash_SHA1: 20 bytes (R226). -/
def hashSha1 (m : List Byte) : List Byte :=
  serialize32 (finalSha1 m).toList

/-- Hash_SHA224: Serialize32(H, 7), 28 bytes; H[7] is computed and dropped (R225, R227). -/
def hashSha224 (m : List Byte) : List Byte :=
  serialize32 ((finalSha224 m).toList.take 7)

/-- Hash_SHA256: 32 bytes (R228). -/
def hashSha256 (m : List Byte) : List Byte :=
  serialize32 (finalSha256 m).toList

end Sys2Proof.Machine
end

