-- ==== Sys2Proof/Machine/Engine64.lean ====
section
/-! DEFINITION. The 64-bit compression engine: SHA-384 and SHA-512 (spec 43_engine64.md R260 to R270). -/

namespace Sys2Proof.Machine

/-- Serialize64: the words of a list, each as BE_8, in order (R265). -/
def serialize64 (ws : List Word64) : List Byte :=
  ws.flatMap fun x => be 8 x.toNat

/-- The SHA-384/512 schedule recurrence, from W[t−1], W[t−2], … (R260). -/
def sha512Next (ws : List Word64) : Word64 :=
  smallSigma1_64 (back ws 2) + back ws 7 + smallSigma0_64 (back ws 15) + back ws 16

/-- Schedule_SHA512, 80 entries (R260). -/
def sha512Schedule (b : Block 64) : List Word64 :=
  scheduleOf sha512Next 64 b

/-- K512_t, t = 0 .. 79 (R261). -/
def k512 : List Word64 :=
    [0x428A2F98D728AE22#64, 0x7137449123EF65CD#64, 0xB5C0FBCFEC4D3B2F#64, 0xE9B5DBA58189DBBC#64]
  ++ [0x3956C25BF348B538#64, 0x59F111F1B605D019#64, 0x923F82A4AF194F9B#64, 0xAB1C5ED5DA6D8118#64]
  ++ [0xD807AA98A3030242#64, 0x12835B0145706FBE#64, 0x243185BE4EE4B28C#64, 0x550C7DC3D5FFB4E2#64]
  ++ [0x72BE5D74F27B896F#64, 0x80DEB1FE3B1696B1#64, 0x9BDC06A725C71235#64, 0xC19BF174CF692694#64]
  ++ [0xE49B69C19EF14AD2#64, 0xEFBE4786384F25E3#64, 0x0FC19DC68B8CD5B5#64, 0x240CA1CC77AC9C65#64]
  ++ [0x2DE92C6F592B0275#64, 0x4A7484AA6EA6E483#64, 0x5CB0A9DCBD41FBD4#64, 0x76F988DA831153B5#64]
  ++ [0x983E5152EE66DFAB#64, 0xA831C66D2DB43210#64, 0xB00327C898FB213F#64, 0xBF597FC7BEEF0EE4#64]
  ++ [0xC6E00BF33DA88FC2#64, 0xD5A79147930AA725#64, 0x06CA6351E003826F#64, 0x142929670A0E6E70#64]
  ++ [0x27B70A8546D22FFC#64, 0x2E1B21385C26C926#64, 0x4D2C6DFC5AC42AED#64, 0x53380D139D95B3DF#64]
  ++ [0x650A73548BAF63DE#64, 0x766A0ABB3C77B2A8#64, 0x81C2C92E47EDAEE6#64, 0x92722C851482353B#64]
  ++ [0xA2BFE8A14CF10364#64, 0xA81A664BBC423001#64, 0xC24B8B70D0F89791#64, 0xC76C51A30654BE30#64]
  ++ [0xD192E819D6EF5218#64, 0xD69906245565A910#64, 0xF40E35855771202A#64, 0x106AA07032BBD1B8#64]
  ++ [0x19A4C116B8D2D0C8#64, 0x1E376C085141AB53#64, 0x2748774CDF8EEB99#64, 0x34B0BCB5E19B48A8#64]
  ++ [0x391C0CB3C5C95A63#64, 0x4ED8AA4AE3418ACB#64, 0x5B9CCA4F7763E373#64, 0x682E6FF3D6B2B8A3#64]
  ++ [0x748F82EE5DEFB2FC#64, 0x78A5636F43172F60#64, 0x84C87814A1F0AB72#64, 0x8CC702081A6439EC#64]
  ++ [0x90BEFFFA23631E28#64, 0xA4506CEBDE82BDE9#64, 0xBEF9A3F7B2C67915#64, 0xC67178F2E372532B#64]
  ++ [0xCA273ECEEA26619C#64, 0xD186B8C721C0C207#64, 0xEADA7DD6CDE0EB1E#64, 0xF57D4F7FEE6ED178#64]
  ++ [0x06F067AA72176FBA#64, 0x0A637DC5A2C898A6#64, 0x113F9804BEF90DAE#64, 0x1B710B35131C471B#64]
  ++ [0x28DB77F523047D84#64, 0x32CAAB7B40C72493#64, 0x3C9EBE0A15C9BEBC#64, 0x431D67C49C100D4C#64]
  ++ [0x4CC5D4BECB3E42B6#64, 0x597F299CFC657E2A#64, 0x5FCB6FAB3AD6FAEC#64, 0x6C44198C4A475817#64]

/-- Init_SHA512 (R262). -/
def sha512Init (h : Vec8 64) : Vars8 64 :=
  ⟨h.h0, h.h1, h.h2, h.h3, h.h4, h.h5, h.h6, h.h7⟩

/-- T1 of Round_SHA512 (R263). -/
def sha512T1 (kt : Word64) (v : Vars8 64) (wt : Word64) : Word64 :=
  v.h + bigSigma1_64 v.e + ch v.e v.f v.g + kt + wt

/-- T2 of Round_SHA512 (R263). -/
def sha512T2 (v : Vars8 64) : Word64 :=
  bigSigma0_64 v.a + maj v.a v.b v.c

/-- Round_SHA512 with `kt` = K512_t and `wt` = W[t] (R263). -/
def sha512Round (kt : Word64) (v : Vars8 64) (wt : Word64) : Vars8 64 :=
  { a := sha512T1 kt v wt + sha512T2 v
    b := v.a
    c := v.b
    d := v.c
    e := v.d + sha512T1 kt v wt
    f := v.e
    g := v.f
    h := v.g }

/-- The 80 rounds of one block, t in increasing order, each with its round constant and its entry of the schedule (R210 step c, R263). -/
def sha512Rounds (w : List Word64) (v : Vars8 64) : Vars8 64 :=
  (k512.zip w).foldl (fun v kw => sha512Round kw.1 v kw.2) v

/-- Fold_SHA512 (R264). -/
def sha512Fold (h : Vec8 64) (v : Vars8 64) : Vec8 64 :=
  ⟨h.h0 + v.a, h.h1 + v.b, h.h2 + v.c, h.h3 + v.d, h.h4 + v.e, h.h5 + v.f, h.h6 + v.g, h.h7 + v.h⟩

/-- IV_SHA384 (R266). -/
def ivSha384 : Vec8 64 :=
  ⟨0xCBBB9D5DC1059ED8#64, 0x629A292A367CD507#64, 0x9159015A3070DD17#64, 0x152FECD8F70E5939#64,
   0x67332667FFC00B31#64, 0x8EB44A8768581511#64, 0xDB0C2E0D64F98FA7#64, 0x47B5481DBEFA4FA4#64⟩

/-- IV_SHA512 (R267). -/
def ivSha512 : Vec8 64 :=
  ⟨0x6A09E667F3BCC908#64, 0xBB67AE8584CAA73B#64, 0x3C6EF372FE94F82B#64, 0xA54FF53A5F1D36F1#64,
   0x510E527FADE682D1#64, 0x9B05688C2B3E6C1F#64, 0x1F83D9ABFB41BD6B#64, 0x5BE0CD19137E2179#64⟩

/-- Compress for SHA-384 and SHA-512 (R210, R269). -/
def compressSha512 (blocks : List (Block 64)) (iv : Vec8 64) : Vec8 64 :=
  compress sha512Schedule sha512Init sha512Rounds sha512Fold blocks iv

/-- The final State Vector of SHA-384 over a message, before truncation (R268, R270). -/
def finalSha384 (m : List Byte) : Vec8 64 :=
  compressSha512 (parse64 (pad64 m)) ivSha384

/-- The final State Vector of SHA-512 over a message (R269). -/
def finalSha512 (m : List Byte) : Vec8 64 :=
  compressSha512 (parse64 (pad64 m)) ivSha512

/-- Hash_SHA512: 64 bytes (R269). -/
def hashSha512 (m : List Byte) : List Byte :=
  serialize64 (finalSha512 m).toList

/-- Hash_SHA384: Serialize64(H, 6), 48 bytes; H[6] and H[7] are computed and dropped (R268, R270). -/
def hashSha384 (m : List Byte) : List Byte :=
  serialize64 ((finalSha384 m).toList.take 6)

end Sys2Proof.Machine
end

