-- ==== Sys2Proof/Syntax.lean ====
section
/-! DEFINITION. The commands of the CORE, what a command word can decode to, the transactions of the host, and the lines of a host script (spec 30_encoding.md R100 to R108; 20_memory.md R71; 60_exceptions.md R340). -/

namespace Sys2Proof

/-- The commands, one constructor per row of spec/opcode_table.json (R104). No command has an operand field: a HASH takes its operands from LEN and the message buffer (R304). -/
inductive Instr where
  | nop
  | clear
  | hashSha1
  | hashSha224
  | hashSha256
  | hashSha384
  | hashSha512
  deriving DecidableEq, Repr

/-- The five variants (R13, R102). -/
inductive Variant where
  | sha1
  | sha224
  | sha256
  | sha384
  | sha512
  deriving DecidableEq, Repr

/-- The results of the decoder: a command, or one of the two rejections, by name (R104). -/
inductive Decoded where
  /-- one of the seven commands -/
  | instr (i : Instr)
  /-- a reserved OP or a reserved bit set (R342) -/
  | illegal
  /-- a HASH with VAR 5, 6 or 7 (R343) -/
  | badVariant
  deriving DecidableEq, Repr

/-- The causes of a command error (R340). Code 0, NONE, is the absence of an error. -/
inductive CmdError where
  | illegalCmd
  | badVariant
  | capacity
  deriving DecidableEq, Repr

/-- The two transactions of the host bus, 32 bits each (R71). -/
inductive Transaction where
  | read (a : Addr)
  | write (a : Addr) (v : Word32)
  deriving DecidableEq, Repr

/-- What the outside world does to the CORE, one at a time: a bus transaction, or the reset event, which falls between two transactions (R11, R370, R377). -/
inductive HostEvent where
  | bus (t : Transaction)
  | reset
  deriving DecidableEq, Repr

/-- The response of the bus to a transaction (R71). -/
inductive Response where
  | ok
  | error
  deriving DecidableEq, Repr

/-- What a bus address names: a register or a word of the message window (R30). -/
inductive BusTarget where
  | cmd
  | status
  | len
  | cap
  | digest (i : Fin 16)
  | msg (j : Nat)
  deriving DecidableEq, Repr

/-- One line of a host script, a plain line (R107) or a pseudo-instruction (R108). -/
inductive ScriptLine where
  /-- WR addr, value -/
  | wr (a : Addr) (v : Word32)
  /-- RD addr, with the value the script states, if it states one -/
  | rd (a : Addr) (stated : Option Word32)
  /-- a command mnemonic -/
  | command (i : Instr)
  /-- CMD value, any value -/
  | cmd (v : Word32)
  /-- LOADMSG of a byte string -/
  | loadMsg (bytes : List Byte)
  /-- HASH name -/
  | hash (v : Variant)
  /-- READDIGEST k -/
  | readDigest (k : Nat)
  deriving DecidableEq, Repr

end Sys2Proof
end

