-- ==== Sys2Proof/Decode.lean ====
section
/-! DEFINITION. The decoder of command words, total on every 32-bit word and rejecting by name, and after it the encoder, from the same tables (spec 30_encoding.md R100 to R106, R109). -/

namespace Sys2Proof

/-- OP = c[7:0] (R100). -/
def opField (c : Word32) : BitVec 8 :=
  c.extractLsb' 0 8

/-- VAR = c[10:8] (R100). -/
def varField (c : Word32) : BitVec 3 :=
  c.extractLsb' 8 3

/-- RES = c[31:11] (R100). -/
def resField (c : Word32) : BitVec 21 :=
  c.extractLsb' 11 21

/-- OP of the three operations (R101). -/
def opNop : BitVec 8 := 0x00#8

/-- OP of HASH (R101). -/
def opHash : BitVec 8 := 0x01#8

/-- OP of CLEAR (R101). -/
def opClear : BitVec 8 := 0x02#8

/-- The variant codes, the same in VAR and in STATUS.VAR (R102, R34). -/
def Variant.code : Variant → BitVec 3
  | .sha1 => 0#3
  | .sha224 => 1#3
  | .sha256 => 2#3
  | .sha384 => 3#3
  | .sha512 => 4#3

/-- The digest length D_v in bytes (R102, R304). -/
def Variant.digestBytes : Variant → Nat
  | .sha1 => 20
  | .sha224 => 28
  | .sha256 => 32
  | .sha384 => 48
  | .sha512 => 64

/-- The HASH command of a variant (R102). -/
def Variant.instr : Variant → Instr
  | .sha1 => .hashSha1
  | .sha224 => .hashSha224
  | .sha256 => .hashSha256
  | .sha384 => .hashSha384
  | .sha512 => .hashSha512

/-- The command a HASH's VAR selects; 5, 6 and 7 are reserved (R102). -/
def decodeHash (v : BitVec 3) : Decoded :=
  if v = 0#3 then .instr .hashSha1
  else if v = 1#3 then .instr .hashSha224
  else if v = 2#3 then .instr .hashSha256
  else if v = 3#3 then .instr .hashSha384
  else if v = 4#3 then .instr .hashSha512
  else .badVariant

/-- The whole decoder. NOP and CLEAR need c[31:8] = 0, that is RES = 0 and VAR = 0; HASH needs c[31:11] = 0 (R103, R104). -/
def decode (c : Word32) : Decoded :=
  if opField c = opNop then
    if c.extractLsb' 8 24 = 0#24 then .instr .nop else .illegal
  else if opField c = opClear then
    if c.extractLsb' 8 24 = 0#24 then .instr .clear else .illegal
  else if opField c = opHash then
    if resField c = 0#21 then decodeHash (varField c) else .illegal
  else .illegal

/-- The instruction the decoder reads from a table row's word: bit 0 is the least significant bit of the command word, every bit from `nbits` up is 0, and
a command is one 32-bit word (R100, R109). -/
def decodeTableWord (nbits w : Nat) : Option Instr :=
  if nbits ≤ 32 then
    match decode (BitVec.ofNat 32 (w % 2 ^ nbits)) with
    | .instr i => some i
    | .illegal => none
    | .badVariant => none
  else none

/-- A command word from its fields, RES zero (R100, R103). -/
def commandWord (op : BitVec 8) (var : BitVec 3) : Word32 :=
  0#21 ++ var ++ op

/-- The encoder: the command word of each command (R101, R102, R104). -/
def encode : Instr → Word32
  | .nop => commandWord opNop 0#3
  | .clear => commandWord opClear 0#3
  | .hashSha1 => commandWord opHash Variant.sha1.code
  | .hashSha224 => commandWord opHash Variant.sha224.code
  | .hashSha256 => commandWord opHash Variant.sha256.code
  | .hashSha384 => commandWord opHash Variant.sha384.code
  | .hashSha512 => commandWord opHash Variant.sha512.code

end Sys2Proof
end

