-- ==== Sys2Proof/Config.lean ====
section
/-! DEFINITION. What one instance of the CORE fixes, and the free values: constants without a body, of which nothing can be proved (spec 00_scope.md R5; 93_implementation_defined.md U4, U5, U8). The other parameters of R5 are in the types: `W32`, `W64`, `BUS_W`, `ADDR_W` in Word.lean, the block length in `Block`, `NUM_ENGINES` = 1 in that State is one instance. -/

namespace Sys2Proof.Config

/-- MSG_CAP of the instance that `State.reset` describes: the spec's default (R5). DESIGN CHOICE: the value is OPEN; every statement takes the capacity
from the state's CAP register, so it holds for any other legal value too (notes/assumptions/1.md). -/
def msgCap : Word32 := 4096#32

/-- The values MSG_CAP may have: a multiple of 4 in [4, 61440] (R5). -/
abbrev LegalMsgCap (cap : Word32) : Prop :=
  4 ≤ cap.toNat ∧ cap.toNat ≤ 61440 ∧ cap.toNat % 4 = 0

/-- HASH_LATENCY, the bus cycles of a HASH command: OPEN, not observable, and no rule depends on it (R5, R375, U5). No definition of the model reads it
(notes/assumptions/11.md). -/
opaque hashLatency : Nat

/-- FREE VALUE: what the host reads from a message word it never wrote, by the number of the draw (R40, R74, U4). -/
opaque freeReadWord : Nat → Word32

/-- FREE VALUE: STATUS after a HASH that would consume a byte the host never wrote, by the number of the draw (R41, R304). -/
opaque freeStatus : Nat → Word32

/-- FREE VALUE: the DIGEST registers after a HASH that would consume a byte the host never wrote, by the number of the draw (R41, R304). -/
opaque freeDigest : Nat → Vector Word32 16

/-- FREE VALUE: the 32-bit engine's internal registers once a HASH command has ended, by the number of the draw (R43, U8). -/
opaque freeEngine32 : Nat → Machine.EngineRegs 32

/-- FREE VALUE: the 64-bit engine's internal registers once a HASH command has ended, by the number of the draw (R43, U8). -/
opaque freeEngine64 : Nat → Machine.EngineRegs 64

end Sys2Proof.Config
end

