-- ==== Sys2Proof/Machine/State.lean ====
section
/-! DEFINITION. The state of the CORE as plain data, the reasons a step can stop, and the state after reset (spec 10_state.md R30 to R49). -/

namespace Sys2Proof.Machine

/-- There is no constructor: no step of the CORE faults. A command error is a status record (R341), a bus error a response (R346), the model fault of R41 the
sticky bit `State.faulted`, and there are no traps (R348). -/
inductive Fault where
  deriving DecidableEq, Repr

/-- Why a step has no meaning. -/
inductive Refusal where
  /-- Raised by an arm of `exec` whose command has no meaning yet; no arm raises it. Safe: the model stops where the hardware goes on. -/
  | notModelled (mnemonic : String)
  deriving DecidableEq, Repr

/-- Bytes of the message buffer by buffer offset. Canonical form: offsets strictly rising. A byte that is not listed has no value (notes/assumptions/2.md). -/
abbrev Memory := List Host.Cell

/-- The answer of the bus to a transaction: its response, and the data of a Read (R71). -/
structure Reply where
  resp : Response
  data : Option Word32
  deriving DecidableEq, Repr

/-- The whole machine. -/
structure State where
  /-- STATUS: VALID[0], VAR[3:1], ERR[7:4], reserved [31:8] (R32). -/
  status : Word32
  /-- LEN (R36). -/
  len : Word32
  /-- CAP, the constant MSG_CAP of this instance (R37). -/
  cap : Word32
  /-- DIGEST[0..16) (R38). -/
  digest : Vector Word32 16
  /-- The message buffer m[0 .. MSG_CAP) and the ghost flags written[j] in one: `written[j]` is that the four bytes of word j are listed (R39, R40). -/
  mem : Memory
  /-- The sticky model fault bit (R41). -/
  faulted : Bool
  /-- The internal registers of the 32-bit family, between commands (R42, R43). -/
  engine32 : EngineRegs 32
  /-- The internal registers of the 64-bit family, between commands (R42, R43). -/
  engine64 : EngineRegs 64
  /-- MODEL: what the host does next, oldest first; the host is the only agent beside the CORE (R11, R377;
  notes/assumptions/7.md). -/
  pending : List HostEvent
  /-- MODEL: the answer to the last transaction, none before the first one after reset (R71; notes/assumptions/9.md). -/
  reply : Option Reply
  /-- MODEL: the number of the next draw of a free value (notes/assumptions/6.md). -/
  draws : Nat
  deriving DecidableEq, Repr

/-- The internal registers after reset: all zero. DESIGN CHOICE: R49 leaves them unspecified (notes/assumptions/3.md). -/
def EngineRegs.atReset (w : Nat) : EngineRegs w :=
  { h := ⟨0, 0, 0, 0, 0, 0, 0, 0⟩
    vars := ⟨0, 0, 0, 0, 0, 0, 0, 0⟩
    sched := Vector.replicate 80 0 }

/-- The machine right after reset (R49), with the default capacity and nothing yet asked by the host. -/
def State.reset : State :=
  { status := 0x00000000#32
    len := 0x00000000#32
    cap := Config.msgCap
    digest := Vector.replicate 16 0x00000000#32
    mem := []
    faulted := false
    engine32 := EngineRegs.atReset 32
    engine64 := EngineRegs.atReset 64
    pending := []
    reply := none
    draws := 0 }

end Sys2Proof.Machine
end

