-- ==== Sys2Proof/Machine/Flags.lean ====
section
/-! DEFINITION. The fields of STATUS, the only flags of the CORE (spec 10_state.md R32 to R35, R48; 60_exceptions.md R340). -/

namespace Sys2Proof.Machine

/-- STATUS.VALID, bit 0 (R32, R33). -/
def statusValid (st : Word32) : Bool :=
  st.getLsbD 0

/-- STATUS.VAR, bits 3:1 (R32, R34). -/
def statusVar (st : Word32) : BitVec 3 :=
  st.extractLsb' 1 3

/-- STATUS.ERR, bits 7:4 (R32, R35). -/
def statusErr (st : Word32) : BitVec 4 :=
  st.extractLsb' 4 4

/-- STATUS bits 31:8, reserved, read as 0 (R32). -/
def statusReserved (st : Word32) : BitVec 24 :=
  st.extractLsb' 8 24

/-- The error codes (R340). -/
def errCode : CmdError → BitVec 4
  | .illegalCmd => 1#4
  | .badVariant => 2#4
  | .capacity => 3#4

/-- zext_32((v << 1) | 1): VALID = 1, VAR = v, ERR = 0 (R304). -/
def hashStatus (v : Variant) : Word32 :=
  (v.code.setWidth 32 <<< 1) ||| 1#32

/-- zext_32(code << 4): VALID = 0, VAR = 0, ERR = code (R341). -/
def errStatus (e : CmdError) : Word32 :=
  (errCode e).setWidth 32 <<< 4

/-- The values STATUS can have: reserved bits 0, VAR in 0..4, ERR in 0..3, VAR = 0 when VALID = 0, ERR = 0 when VALID = 1 (R32, R34, R35). -/
def legalStatus (st : Word32) : Bool :=
  decide (statusReserved st = 0#24) && decide ((statusVar st).toNat ≤ 4) && decide ((statusErr st).toNat ≤ 3)
    && (if statusValid st then decide (statusErr st = 0#4) else decide (statusVar st = 0#3))

/-- STATUS where the spec defines no further state (R304): any value STATUS can have. The free value is kept where it is one of those; it ranges over all of
them (notes/assumptions/5.md). -/
def freeLegalStatus (draw : Nat) : Word32 :=
  if legalStatus (Config.freeStatus draw) then Config.freeStatus draw else 0#32

/-- How many bytes of DIGEST a STATUS says are digest bytes: D_v when VALID = 1, none when VALID = 0 (R32, R310). -/
def digestBytesOf (st : Word32) : Nat :=
  if statusValid st then
    if statusVar st = 0#3 then 20
    else if statusVar st = 1#3 then 28
    else if statusVar st = 2#3 then 32
    else if statusVar st = 3#3 then 48
    else 64
  else 0

end Sys2Proof.Machine
end

