-- ==== Sys2Proof/Machine/Ops.lean ====
section
/-! DEFINITION. The named operations on the message buffer and on the registers, the error record, the model fault and the reset event (spec 00_scope.md R10; 10_state.md R38 to R41; 20_memory.md R73 to R76; 60_exceptions.md R341; 70_reset_and_hazards.md R370). -/

namespace Sys2Proof.Machine

/-- The form of a memory: offsets strictly rising. -/
def Memory.wf : Memory → Bool
  | [] => true
  | [_] => true
  | c :: c' :: rest => decide (c.1 < c'.1) && Memory.wf (c' :: rest)

/-- The byte m[k], none where the host never wrote it. -/
def readByte : Memory → Nat → Option Byte
  | [], _ => none
  | (k', b) :: rest, k => if k = k' then some b else readByte rest k

/-- m[k] <- b. -/
def writeByte : Memory → Nat → Byte → Memory
  | [], k, b => [(k, b)]
  | (k', b') :: rest, k, b =>
      if k < k' then (k, b) :: (k', b') :: rest
      else if k = k' then (k, b) :: rest
      else (k', b') :: writeByte rest k b

/-- The bytes m[a .. a+n), none if one of them was never written. -/
def readBytes (m : Memory) : Nat → Nat → Option (List Byte)
  | _, 0 => some []
  | a, n + 1 =>
      match readByte m a, readBytes m (a + 1) n with
      | some b, some bs => some (b :: bs)
      | _, _ => none

/-- m[a], m[a+1], … <- the bytes of a list. -/
def writeBytes : Memory → Nat → List Byte → Memory
  | m, _, [] => m
  | m, a, b :: bs => writeBytes (writeByte m a b) (a + 1) bs

/-- MemRead(a, n): the big-endian concatenation of n bytes (R10). -/
def memRead (m : Memory) (a n : Nat) : Option Nat :=
  (readBytes m a n).map beVal

/-- MemWrite(a, n, v): BE_n(v) into bytes a..a+n−1 (R10). -/
def memWrite (m : Memory) (a n v : Nat) : Memory :=
  writeBytes m a (be n v)

/-- The flag written[j]: the host wrote word j since reset (R40). -/
def written (m : Memory) (j : Nat) : Bool :=
  (readBytes m (4 * j) 4).isSome

/-- MSG word j, m[4j] ‖ m[4j+1] ‖ m[4j+2] ‖ m[4j+3]; none where written[j] is false (R74). -/
def readMsgWord (m : Memory) (j : Nat) : Option Word32 :=
  (memRead m (4 * j) 4).map (BitVec.ofNat 32)

/-- The write of MSG word j: MemWrite(4j, 4, v), which also sets written[j] (R73). -/
def State.writeMsgWord (s : State) (j : Nat) (v : Word32) : State :=
  { s with mem := memWrite s.mem (4 * j) 4 v.toNat }

/-- LEN <- v (R36, R75). -/
def State.setLen (s : State) (v : Word32) : State :=
  { s with len := v }

/-- The bus answers a transaction (R71). -/
def State.setReply (s : State) (r : Reply) : State :=
  { s with reply := some r }

/-- One free value is drawn; the next draw is another one. -/
def State.drawn (s : State) : State :=
  { s with draws := s.draws + 1 }

/-- The error record: TAKING A COMMAND ERROR, for every cause. STATUS and all DIGEST registers are written; LEN, the buffer, the flags and `faulted` are not, and
nothing else is saved (R341). There is no return from it (R349). -/
def State.raiseCmdError (s : State) (e : CmdError) : State :=
  { s with status := errStatus e, digest := Vector.replicate 16 0x00000000#32 }

/-- DIGEST[i] <- BEval(e[4i .. 4i+4)) for the 64 bytes e = d ‖ zeros (R304, R76). -/
def packDigest (e : List Byte) : Vector Word32 16 :=
  Vector.ofFn fun i => BitVec.ofNat 32 (beVal ((e.drop (4 * i.val)).take 4))

/-- The engine ends a command: its registers are discarded (R43) and hold any value from here on (U8; notes/assumptions/4.md). -/
def State.discardEngines (s : State) : State :=
  { s with engine32 := Config.freeEngine32 s.draws, engine64 := Config.freeEngine64 s.draws, draws := s.draws + 1 }

/-- A HASH of variant v completes with digest d: DIGEST takes d and zeros up to 64 bytes, STATUS says VALID = 1, VAR = v, ERR = 0 (R304). -/
def State.emitDigest (s : State) (v : Variant) (d : List Byte) : State :=
  { s.discardEngines with
    digest := packDigest (d ++ List.replicate (64 - v.digestBytes) 0x00#8)
    status := hashStatus v }

/-- A HASH would consume a byte the host never wrote: `faulted` is set and no further state is defined, so STATUS, DIGEST and the engine's registers take free
values (notes/assumptions/5.md); LEN, the buffer and the flags are those before, as after any HASH (R41, R79, R304). -/
def State.modelFault (s : State) : State :=
  { s.discardEngines with
    faulted := true
    digest := Config.freeDigest s.draws
    status := freeLegalStatus s.draws }

/-- CLEAR: STATUS, LEN and DIGEST to zero (R303). -/
def State.clearRegs (s : State) : State :=
  { s with status := 0x00000000#32, len := 0x00000000#32, digest := Vector.replicate 16 0x00000000#32 }

/-- The reset event: every piece of state to its value of R49; CAP does not change (R370). What the host does next and the count of draws are the model's own
and stay (notes/assumptions/10.md). -/
def State.resetEvent (s : State) : State :=
  { State.reset with cap := s.cap, pending := s.pending, draws := s.draws }

end Sys2Proof.Machine
end

