-- ==== Sys2Proof/Machine/Operands.lean ====
section
/-! DEFINITION. Where operands come from: the address map of the host bus, and the message a HASH command consumes (spec 10_state.md R30; 20_memory.md R70 to R75, R79, R80; 44_commands.md R304). -/

namespace Sys2Proof.Machine

/-- What an address names on a CORE of capacity `cap`; none for a misaligned address and for an unmapped offset, which end in a bus error (R30, R71, R72, R80). -/
def busTarget (cap : Nat) (a : Addr) : Option BusTarget :=
  if a.toNat % 4 ≠ 0 then none
  else if a.toNat = 0x0000 then some .cmd
  else if a.toNat = 0x0004 then some .status
  else if a.toNat = 0x0008 then some .len
  else if a.toNat = 0x000C then some .cap
  else if 0x0040 ≤ a.toNat ∧ a.toNat < 0x0080 then some (.digest (Fin.ofNat 16 ((a.toNat - 0x0040) / 4)))
  else if 0x1000 ≤ a.toNat ∧ a.toNat < 0x1000 + cap then some (.msg ((a.toNat - 0x1000) / 4))
  else none

/-- The address of CMD (R30). -/
def cmdAddr : Addr := 0x0000#16

/-- Every byte of m[0 .. n) lies in a word with written[k div 4] true: the words 0 .. ceil(n/4) − 1 (R41, R304). -/
def consumedWritten (m : Memory) (n : Nat) : Bool :=
  (List.range ((n + 3) / 4)).all (written m)

/-- The copy of m[0 .. n) that a HASH works on, or none if it would consume a byte of a word the host never wrote (R79, R190, R304). -/
def messageOperand (m : Memory) (n : Nat) : Option (List Byte) :=
  if consumedWritten m n then readBytes m 0 n else none

end Sys2Proof.Machine
end

