-- ==== Sys2Proof/Machine/Commands.lean ====
section
/-! DEFINITION. The meanings of the seven commands (spec 44_commands.md R302 to R309). -/

namespace Sys2Proof.Machine

/-- NOP: nothing, not even STATUS.ERR (R302). -/
def execNop (s : State) : Host.Outcome State Fault Refusal :=
  .next s

/-- CLEAR (R303). -/
def execClear (s : State) : Host.Outcome State Fault Refusal :=
  .next s.clearRegs

/-- exec_HASH(v), common to the five variants: CAPACITY first, then the model fault, then the digest (R304, R345). -/
def execHash (v : Variant) (hash : List Byte → List Byte) (s : State) : Host.Outcome State Fault Refusal :=
  if s.cap.toNat < s.len.toNat then .next (s.raiseCmdError .capacity)
  else
    match messageOperand s.mem s.len.toNat with
    | none => .next s.modelFault
    | some m => .next (s.emitDigest v (hash m))

/-- HASH.SHA1 (R305). -/
def execHashSha1 (s : State) : Host.Outcome State Fault Refusal :=
  execHash .sha1 hashSha1 s

/-- HASH.SHA224 (R306). -/
def execHashSha224 (s : State) : Host.Outcome State Fault Refusal :=
  execHash .sha224 hashSha224 s

/-- HASH.SHA256 (R307). -/
def execHashSha256 (s : State) : Host.Outcome State Fault Refusal :=
  execHash .sha256 hashSha256 s

/-- HASH.SHA384 (R308). -/
def execHashSha384 (s : State) : Host.Outcome State Fault Refusal :=
  execHash .sha384 hashSha384 s

/-- HASH.SHA512 (R309). -/
def execHashSha512 (s : State) : Host.Outcome State Fault Refusal :=
  execHash .sha512 hashSha512 s

end Sys2Proof.Machine
end

