-- ==== Sys2Proof/Machine/Dispatch.lean ====
section
/-! DEFINITION. The meaning of every command, one arm per constructor (spec 44_commands.md R300). -/

namespace Sys2Proof.Machine

def exec (i : Instr) (s : State) : Host.Outcome State Fault Refusal :=
  match i with
  | .nop => Sys2Proof.Machine.execNop s
  | .clear => Sys2Proof.Machine.execClear s
  | .hashSha1 => Sys2Proof.Machine.execHashSha1 s
  | .hashSha224 => Sys2Proof.Machine.execHashSha224 s
  | .hashSha256 => Sys2Proof.Machine.execHashSha256 s
  | .hashSha384 => Sys2Proof.Machine.execHashSha384 s
  | .hashSha512 => Sys2Proof.Machine.execHashSha512 s

end Sys2Proof.Machine
end

