-- ==== Sys2Proof/Machine/Bus.lean ====
section
/-! DEFINITION. What the CORE does with one event of the host: a bus read, a bus write, a command, a bus error, a reset (spec 20_memory.md R71 to R78; 44_commands.md R300; 60_exceptions.md R346; 70_reset_and_hazards.md R370). -/

namespace Sys2Proof.Machine

/-- The write of c to CMD performs one command, whole (R300, R375). -/
def performCommand (c : Word32) (s : State) : Host.Outcome State Fault Refusal :=
  match decode c with
  | .instr i => exec i s
  | .illegal => .next (s.raiseCmdError .illegalCmd)
  | .badVariant => .next (s.raiseCmdError .badVariant)

/-- The bus answers where a step goes on. -/
def answer (r : Reply) : Host.Outcome State Fault Refusal → Host.Outcome State Fault Refusal
  | .next s => .next (s.setReply r)
  | .fault f => .fault f
  | .refused f => .refused f

/-- The answer to a Read that is served: OK and the value (R71). -/
def okRead (v : Word32) : Reply := ⟨.ok, some v⟩

/-- The answer to a Write that is served: OK (R71). -/
def okWrite : Reply := ⟨.ok, none⟩

/-- The answer to a Read that is a bus error: ERROR and the data 0x00000000 (R72, R346). -/
def errRead : Reply := ⟨.error, some 0x00000000#32⟩

/-- The answer to a Write that is a bus error: ERROR (R72, R346). -/
def errWrite : Reply := ⟨.error, none⟩

/-- The read of a register or of a message word. CMD reads 0; a message word the host never wrote reads a fresh free value (R40, R74, R75;
notes/assumptions/6.md). -/
def readTarget : BusTarget → State → State
  | .cmd, s => s.setReply (okRead 0x00000000#32)
  | .status, s => s.setReply (okRead s.status)
  | .len, s => s.setReply (okRead s.len)
  | .cap, s => s.setReply (okRead s.cap)
  | .digest i, s => s.setReply (okRead s.digest[i])
  | .msg j, s =>
      match readMsgWord s.mem j with
      | some v => s.setReply (okRead v)
      | none => s.drawn.setReply (okRead (Config.freeReadWord s.draws))

/-- The effect of a write: CMD performs a command, LEN and the message words store, STATUS, CAP and DIGEST ignore it (R73, R75). -/
def writeTarget : BusTarget → Word32 → State → Host.Outcome State Fault Refusal
  | .cmd, v, s => performCommand v s
  | .status, _, s => .next s
  | .len, v, s => .next (s.setLen v)
  | .cap, _, s => .next s
  | .digest _, _, s => .next s
  | .msg j, v, s => .next (s.writeMsgWord j v)

/-- One bus transaction. The response is OK in every case but the bus error, a command that ends in a command error among them (R71, R72, R300). -/
def transact : Transaction → State → Host.Outcome State Fault Refusal
  | .read a, s =>
      match busTarget s.cap.toNat a with
      | none => .next (s.setReply errRead)
      | some t => .next (readTarget t s)
  | .write a v, s =>
      match busTarget s.cap.toNat a with
      | none => .next (s.setReply errWrite)
      | some t => answer okWrite (writeTarget t v s)

/-- One event of the host (R11, R370). -/
def serve : HostEvent → State → Host.Outcome State Fault Refusal
  | .bus t, s => transact t s
  | .reset, s => .next s.resetEvent

/-- The event that hands the CORE a command word: its write to CMD (R84, R300). -/
def commandEvent (c : Word32) : HostEvent :=
  .bus (.write cmdAddr c)

/-- `s` after the host's oldest event is taken up. -/
def State.taken (s : State) (rest : List HostEvent) : State :=
  { s with pending := rest }

/-- `s` with one more event before all the others. -/
def State.asked (s : State) (e : HostEvent) : State :=
  { s with pending := e :: s.pending }

end Sys2Proof.Machine
end

