-- ==== Sys2Proof/Machine/Step.lean ====
section
/-! DEFINITION. One step of the machine: the host's oldest event is served, whole (spec 00_scope.md R11; 20_memory.md R82). -/

namespace Sys2Proof.Machine

/-- Without an event of the host the CORE is idle and nothing changes (notes/assumptions/7.md). -/
def step (s : State) : Host.Outcome State Fault Refusal :=
  match s.pending with
  | [] => .next s
  | e :: rest => serve e (s.taken rest)

/-- `s` whose very next step is the write of this command word to CMD: the CORE fetches nothing, its program is the sequence of command words the host
writes (R84; notes/assumptions/8.md). -/
def State.withFetchWord (s : State) (nbits w : Nat) : State :=
  s.asked (commandEvent (BitVec.ofNat 32 (w % 2 ^ nbits)))

end Sys2Proof.Machine
end

