-- ==== Sys2Proof/WellFormed.lean ====
section
/-! DEFINITION. What a well-formed command, command word and script line is (spec 30_encoding.md R100 to R108). -/

namespace Sys2Proof

/-- A command has no operand field, so every term of `Instr` is well formed (R104). -/
def Instr.wf : Instr → Bool
  | .nop => true
  | .clear => true
  | .hashSha1 => true
  | .hashSha224 => true
  | .hashSha256 => true
  | .hashSha384 => true
  | .hashSha512 => true

/-- OP is one of NOP, HASH and CLEAR (R101). -/
def opKnown (c : Word32) : Bool :=
  decide ((c.extractLsb' 0 8).toNat ≤ 2)

/-- The reserved bits are zero: bits 31:11 of a HASH, bits 31:8 of any other word (R103). -/
def reservedZero (c : Word32) : Bool :=
  if c.extractLsb' 0 8 = 1#8 then decide (c.extractLsb' 11 21 = 0#21) else decide (c.extractLsb' 8 24 = 0#24)

/-- A HASH's VAR is one of the five variant codes (R102). -/
def varKnown (c : Word32) : Bool :=
  decide (c.extractLsb' 0 8 = 1#8 → (c.extractLsb' 8 3).toNat ≤ 4)

/-- A command word that stands for a command (R100 to R103). -/
def commandWordWf (c : Word32) : Bool :=
  opKnown c && reservedZero c && varKnown c

/-- A script line within its bounds on a CORE of capacity `cap`: LOADMSG takes at most MSG_CAP bytes and READDIGEST at most the sixteen DIGEST registers
(R107, R108). -/
def ScriptLine.wf (cap : Nat) : ScriptLine → Bool
  | .wr _ _ => true
  | .rd _ _ => true
  | .command i => i.wf
  | .cmd _ => true
  | .loadMsg bytes => decide (bytes.length ≤ cap)
  | .hash _ => true
  | .readDigest k => decide (k ≤ 16)

end Sys2Proof
end

