-- ==== Sys2Proof/Machine/Script.lean ====
section
/-! DEFINITION. Host scripts: what each line asks of the bus, and the use sequence of one hash (spec 30_encoding.md R107, R108; 70_reset_and_hazards.md R372). -/

namespace Sys2Proof.Machine

/-- STATUS = 0x0004 (R107). -/
def statusAddr : Addr := 0x0004#16

/-- LEN = 0x0008 (R107). -/
def lenAddr : Addr := 0x0008#16

/-- CAP = 0x000C (R107). -/
def capAddr : Addr := 0x000C#16

/-- DIGEST i = 0x0040 + 4·i (R107). -/
def digestAddr (i : Nat) : Addr := BitVec.ofNat 16 (0x0040 + 4 * i)

/-- MSG j = 0x1000 + 4·j (R107). -/
def msgAddr (j : Nat) : Addr := BitVec.ofNat 16 (0x1000 + 4 * j)

/-- The message words of a byte string, big-endian, the last one filled up with zero bytes (R108). -/
def loadWords : List Byte → List Word32
  | [] => []
  | [b0] => [BitVec.ofNat 32 (beVal [b0, 0, 0, 0])]
  | [b0, b1] => [BitVec.ofNat 32 (beVal [b0, b1, 0, 0])]
  | [b0, b1, b2] => [BitVec.ofNat 32 (beVal [b0, b1, b2, 0])]
  | b0 :: b1 :: b2 :: b3 :: rest => BitVec.ofNat 32 (beVal [b0, b1, b2, b3]) :: loadWords rest

/-- The writes WR MSG j, WR MSG j+1, … of a list of message words (R108). -/
def msgWrites : Nat → List Word32 → List Transaction
  | _, [] => []
  | j, v :: vs => .write (msgAddr j) v :: msgWrites (j + 1) vs

/-- The transactions a script line stands for, in order (R107, R108). -/
def expandLine : ScriptLine → List Transaction
  | .wr a v => [.write a v]
  | .rd a _ => [.read a]
  | .command i => [.write cmdAddr (encode i)]
  | .cmd v => [.write cmdAddr v]
  | .loadMsg bytes => msgWrites 0 (loadWords bytes) ++ [.write lenAddr (BitVec.ofNat 32 bytes.length)]
  | .hash v => [.write cmdAddr (encode v.instr)]
  | .readDigest k => (List.range k).map fun i => .read (digestAddr i)

/-- A script as the host's events, in order. -/
def scriptEvents (script : List ScriptLine) : List HostEvent :=
  script.flatMap fun line => (expandLine line).map .bus

/-- A script is well formed when each of its lines is (R107, R108). -/
def scriptWf (cap : Nat) (script : List ScriptLine) : Bool :=
  script.all (·.wf cap)

/-- The machine with a script before it. -/
def State.withScript (s : State) (script : List ScriptLine) : State :=
  { s with pending := scriptEvents script ++ s.pending }

/-- The use sequence of one hash: the capacity is read, the message and its length are written, the HASH command is given, STATUS and the digest are read
(R372). -/
def useSequence (v : Variant) (message : List Byte) : List ScriptLine :=
  [.rd capAddr none, .loadMsg message, .hash v, .rd statusAddr (some (hashStatus v)), .readDigest ((v.digestBytes + 3) / 4)]

end Sys2Proof.Machine
end

