-- ==== Sys2Proof/Safety.lean ====
section
/-! DEFINITION. The words the statements use: what a sound state, a held message, an error record and a frame are (spec 10_state.md R32 to R41, R49; 20_memory.md R79; 44_commands.md R304, R310; 60_exceptions.md R341). -/

namespace Sys2Proof.Machine

/-- Hash_v (R305 to R309). -/
def hashOf : Variant → List Byte → List Byte
  | .sha1 => hashSha1
  | .sha224 => hashSha224
  | .sha256 => hashSha256
  | .sha384 => hashSha384
  | .sha512 => hashSha512

/-- DIGEST word i holds no digest byte and is 0, for every i beyond the digest that STATUS names (R32, R310). -/
def DigestOccupancy (s : State) : Prop :=
  ∀ i : Fin 16, digestBytesOf s.status ≤ 4 * i.val → s.digest[i] = 0x00000000#32

/-- The invariant of every step: CAP holds a legal capacity (R5); the buffer is in canonical form, lists only offsets below MSG_CAP (R39), and lists
whole words (R73); STATUS has a legal value (R32 to R35); and, but after a model fault, DIGEST beyond the digest is zero (R310). -/
structure State.Inv (s : State) : Prop where
  capLegal : Config.LegalMsgCap s.cap
  memCanonical : Memory.wf s.mem = true
  memInBuffer : ∀ k, (readByte s.mem k).isSome = true → k < s.cap.toNat
  memWholeWords : ∀ k, (readByte s.mem k).isSome = true → written s.mem (k / 4) = true
  statusLegal : legalStatus s.status = true
  digestOccupied : s.faulted = false → DigestOccupancy s

/-- The buffer and LEN hold the message: LEN is its length, each of its bytes stands at its offset, and each word it touches was written (R39, R40, R372). -/
def State.HoldsMessage (s : State) (m : List Byte) : Prop :=
  s.len.toNat = m.length ∧ ∀ k, k < m.length → written s.mem (k / 4) = true ∧ readByte s.mem k = m[k]?

/-- What no HASH and no error record changes: LEN, CAP, every byte of the buffer and every flag (R79, R301, R341); and, of the model's own
fields, what the host does next and the last answer (notes/assumptions/7.md, notes/assumptions/9.md). -/
def SameInputs (s t : State) : Prop :=
  t.len = s.len ∧ t.cap = s.cap ∧ t.mem = s.mem ∧ (∀ k, readByte t.mem k = readByte s.mem k) ∧ (∀ j, written t.mem j = written s.mem j)
    ∧ t.pending = s.pending ∧ t.reply = s.reply

/-- The error record of a code: STATUS = code << 4, DIGEST all zero, everything else as before (R341). -/
def ErrorRecord (code : Nat) (s t : State) : Prop :=
  t.status = BitVec.ofNat 32 (16 * code) ∧ (∀ i : Fin 16, t.digest[i] = 0x00000000#32)
    ∧ t.len = s.len ∧ t.cap = s.cap ∧ t.mem = s.mem ∧ t.faulted = s.faulted ∧ t.engine32 = s.engine32 ∧ t.engine64 = s.engine64
    ∧ t.pending = s.pending ∧ t.draws = s.draws

/-- The state of a finished run. A state with `faulted` set is never final (R41). DESIGN CHOICE: of the others, those in which the host asks nothing more are
final; the spec does not say which are (notes/assumptions/15.md). -/
def State.final (s : State) : Bool :=
  s.pending.isEmpty && !s.faulted

end Sys2Proof.Machine
end

