-- ==== Sys2Proof/Certificates/Slice0/Obligations.lean ====
section
/-! DEFINITION. The statements for the provers, from the numbered rules of the spec. -/

open Sys2Proof Sys2Proof.Machine

/-! ### Command words (30_encoding.md) -/

/-- R104: exactly seven words decode to a command, three to BadVariant, every other word to Illegal. -/
def Obligations.DecodeClassifiesEveryWord : Prop :=
  ∀ c : Word32,
    (decode c = .instr .nop ↔ c = 0x00000000#32)
    ∧ (decode c = .instr .clear ↔ c = 0x00000002#32)
    ∧ (decode c = .instr .hashSha1 ↔ c = 0x00000001#32)
    ∧ (decode c = .instr .hashSha224 ↔ c = 0x00000101#32)
    ∧ (decode c = .instr .hashSha256 ↔ c = 0x00000201#32)
    ∧ (decode c = .instr .hashSha384 ↔ c = 0x00000301#32)
    ∧ (decode c = .instr .hashSha512 ↔ c = 0x00000401#32)
    ∧ (decode c = .badVariant ↔ c = 0x00000501#32 ∨ c = 0x00000601#32 ∨ c = 0x00000701#32)
    ∧ (decode c = .illegal ↔
        c ∉ [0x00000000#32, 0x00000002#32, 0x00000001#32, 0x00000101#32, 0x00000201#32, 0x00000301#32, 0x00000401#32,
             0x00000501#32, 0x00000601#32, 0x00000701#32])

/-- The decoder and the encoder agree both ways, for every command and every word, and through the table's numbering of bits (R104, R109). -/
def Obligations.DecodeAndEncodeAgree : Prop :=
  (∀ i : Instr, i.wf = true → decode (encode i) = .instr i ∧ decodeTableWord 32 (encode i).toNat = some i)
    ∧ ∀ (c : Word32) (i : Instr), decode c = .instr i → encode i = c

/-- The command words of spec/opcode_table.json, written out, decode to their commands. -/
def Obligations.TableWordsDecode : Prop :=
  decodeTableWord 32 0x00000000 = some .nop ∧ decodeTableWord 32 0x00000002 = some .clear ∧ decodeTableWord 32 0x00000001 = some .hashSha1
    ∧ decodeTableWord 32 0x00000101 = some .hashSha224 ∧ decodeTableWord 32 0x00000201 = some .hashSha256
    ∧ decodeTableWord 32 0x00000301 = some .hashSha384 ∧ decodeTableWord 32 0x00000401 = some .hashSha512

/-! ### NOP and CLEAR (44_commands.md) -/

/-- R302: NOP has the word 0x00000000 and leaves the whole state as it is, STATUS.ERR among it; a word with OP = 0 and any other bit set is Illegal. -/
def Obligations.NopChangesNothing : Prop :=
  encode .nop = 0x00000000#32 ∧ (∀ s : State, exec .nop s = .next s)
    ∧ ∀ c : Word32, c.toNat % 256 = 0 → c.toNat / 256 ≠ 0 → decode c = .illegal

/-- R303: CLEAR has the word 0x00000002; it zeroes STATUS, LEN and DIGEST and leaves the buffer, the flags, `faulted` and CAP; after reset it changes nothing. That it
leaves the engine's registers and the count of draws is the model's choice (notes/assumptions/4.md, notes/assumptions/6.md), and so are the host's further events and the
last answer (notes/assumptions/7.md, notes/assumptions/9.md). -/
def Obligations.ClearZeroesStatusLenDigest : Prop :=
  encode .clear = 0x00000002#32 ∧ exec .clear State.reset = .next State.reset
    ∧ ∀ s : State, ∃ t, exec .clear s = .next t ∧ t.status = 0x00000000#32 ∧ t.len = 0x00000000#32 ∧ (∀ i : Fin 16, t.digest[i] = 0x00000000#32)
        ∧ t.mem = s.mem ∧ (∀ k, readByte t.mem k = readByte s.mem k) ∧ (∀ j, written t.mem j = written s.mem j)
        ∧ t.faulted = s.faulted ∧ t.cap = s.cap ∧ t.engine32 = s.engine32 ∧ t.engine64 = s.engine64
        ∧ t.pending = s.pending ∧ t.reply = s.reply ∧ t.draws = s.draws

/-! ### HASH (44_commands.md) -/

/-- R304, success: with the message in the buffer, LEN its length and LEN ≤ MSG_CAP, the HASH of every variant completes: DIGEST[i] is BEval(e[4i .. 4i+4)) for
e = Hash_v(M) ‖ zeros, STATUS is (v << 1) | 1; LEN, the buffer, the flags and `faulted` are as before. -/
def Obligations.HashCompletesWithDigest : Prop :=
  ∀ (v : Variant) (s : State) (m : List Byte), s.HoldsMessage m → m.length ≤ s.cap.toNat →
    ∃ t, exec v.instr s = .next t
      ∧ t.status = ((v.code.setWidth 32) <<< 1) ||| 1#32
      ∧ (∀ i : Fin 16, t.digest[i]
          = BitVec.ofNat 32 (beVal (((hashOf v m ++ List.replicate (64 - v.digestBytes) 0x00#8).drop (4 * i.val)).take 4)))
      ∧ t.faulted = s.faulted ∧ SameInputs s t

/-- R305: HASH.SHA1 leaves the five state words in DIGEST[0..5), zeros after them, and STATUS = 0x00000001; LEN > MSG_CAP is CAPACITY; 55 bytes are one block, 56 two. -/
def Obligations.HashSha1Result : Prop :=
  encode .hashSha1 = 0x00000001#32
    ∧ (∀ (s : State) (m : List Byte), s.HoldsMessage m → m.length ≤ s.cap.toNat →
        ∃ t, exec .hashSha1 s = .next t ∧ t.status = 0x00000001#32
          ∧ t.digest.toList = (finalSha1 m).toList ++ List.replicate 11 0x00000000#32 ∧ t.faulted = s.faulted ∧ SameInputs s t)
    ∧ (∀ s : State, s.cap.toNat < s.len.toNat → ∃ t, exec .hashSha1 s = .next t ∧ ErrorRecord 3 s t)
    ∧ ∀ m : List Byte, (m.length = 55 → (parse32 (pad32 m)).length = 1) ∧ (m.length = 56 → (parse32 (pad32 m)).length = 2)

/-- R306: HASH.SHA224 leaves H[0..7) in DIGEST[0..7), zeros after them, and STATUS = 0x00000003; LEN > MSG_CAP is CAPACITY. -/
def Obligations.HashSha224Result : Prop :=
  encode .hashSha224 = 0x00000101#32
    ∧ (∀ (s : State) (m : List Byte), s.HoldsMessage m → m.length ≤ s.cap.toNat →
        ∃ t, exec .hashSha224 s = .next t ∧ t.status = 0x00000003#32
          ∧ t.digest.toList = (finalSha224 m).toList.take 7 ++ List.replicate 9 0x00000000#32 ∧ t.faulted = s.faulted ∧ SameInputs s t)
    ∧ (∀ s : State, s.cap.toNat < s.len.toNat → ∃ t, exec .hashSha224 s = .next t ∧ ErrorRecord 3 s t)

/-- R307: HASH.SHA256 leaves H[0..8) in DIGEST[0..8), zeros after them, and STATUS = 0x00000005; LEN > MSG_CAP is CAPACITY. -/
def Obligations.HashSha256Result : Prop :=
  encode .hashSha256 = 0x00000201#32
    ∧ (∀ (s : State) (m : List Byte), s.HoldsMessage m → m.length ≤ s.cap.toNat →
        ∃ t, exec .hashSha256 s = .next t ∧ t.status = 0x00000005#32
          ∧ t.digest.toList = (finalSha256 m).toList ++ List.replicate 8 0x00000000#32 ∧ t.faulted = s.faulted ∧ SameInputs s t)
    ∧ (∀ s : State, s.cap.toNat < s.len.toNat → ∃ t, exec .hashSha256 s = .next t ∧ ErrorRecord 3 s t)

/-- R308: HASH.SHA384 leaves H[0..6) in DIGEST[0..12), high word first, zeros after them, and STATUS = 0x00000007; LEN > MSG_CAP is CAPACITY; 111 bytes are one block, 112
two. -/
def Obligations.HashSha384Result : Prop :=
  encode .hashSha384 = 0x00000301#32
    ∧ (∀ (s : State) (m : List Byte), s.HoldsMessage m → m.length ≤ s.cap.toNat →
        ∃ t, exec .hashSha384 s = .next t ∧ t.status = 0x00000007#32
          ∧ t.digest.toList = ((finalSha384 m).toList.take 6).flatMap (fun h => [h.extractLsb' 32 32, h.extractLsb' 0 32])
              ++ List.replicate 4 0x00000000#32
          ∧ t.faulted = s.faulted ∧ SameInputs s t)
    ∧ (∀ s : State, s.cap.toNat < s.len.toNat → ∃ t, exec .hashSha384 s = .next t ∧ ErrorRecord 3 s t)
    ∧ ∀ m : List Byte, (m.length = 111 → (parse64 (pad64 m)).length = 1) ∧ (m.length = 112 → (parse64 (pad64 m)).length = 2)

/-- R309: HASH.SHA512 leaves H[0..8) in DIGEST[0..16), high word first, and STATUS = 0x00000009; LEN > MSG_CAP is CAPACITY. -/
def Obligations.HashSha512Result : Prop :=
  encode .hashSha512 = 0x00000401#32
    ∧ (∀ (s : State) (m : List Byte), s.HoldsMessage m → m.length ≤ s.cap.toNat →
        ∃ t, exec .hashSha512 s = .next t ∧ t.status = 0x00000009#32
          ∧ t.digest.toList = (finalSha512 m).toList.flatMap (fun h => [h.extractLsb' 32 32, h.extractLsb' 0 32])
          ∧ t.faulted = s.faulted ∧ SameInputs s t)
    ∧ (∀ s : State, s.cap.toNat < s.len.toNat → ∃ t, exec .hashSha512 s = .next t ∧ ErrorRecord 3 s t)

/-- R14, R310: the digest length of a variant does not depend on the message: 20, 28, 32, 48 and 64 bytes. -/
def Obligations.DigestLengthIsFixed : Prop :=
  ∀ m : List Byte, (hashOf .sha1 m).length = 20 ∧ (hashOf .sha224 m).length = 28 ∧ (hashOf .sha256 m).length = 32
    ∧ (hashOf .sha384 m).length = 48 ∧ (hashOf .sha512 m).length = 64

/-- R344: a HASH of any variant with LEN > MSG_CAP takes the error record with code 3, whatever the buffer holds; `faulted` does not change (R345). -/
def Obligations.HashAboveCapacityIsError : Prop :=
  ∀ (v : Variant) (s : State), s.cap.toNat < s.len.toNat →
    ∃ t, exec v.instr s = .next t ∧ ErrorRecord 3 s t ∧ t.reply = s.reply

/-- R41: a HASH with LEN ≤ MSG_CAP that would consume a byte of a never-written word sets `faulted` and leaves its inputs as they are. STATUS then has a legal
value and nothing more is said of it: it and DIGEST are free values (notes/assumptions/5.md). -/
def Obligations.HashOfUnwrittenByteSetsFaulted : Prop :=
  ∀ (v : Variant) (s : State), s.len.toNat ≤ s.cap.toNat → (∃ k, k < s.len.toNat ∧ written s.mem (k / 4) = false) →
    ∃ t, exec v.instr s = .next t ∧ t.faulted = true ∧ legalStatus t.status = true ∧ SameInputs s t

/-- R41: `faulted` changes in no other way. Of the commands, only a HASH sets it, with LEN ≤ MSG_CAP and a byte below LEN in a word never written. Of the steps, only the
one that serves the write of such a HASH's word to CMD sets it: no read, no write of a message word or of LEN, no rejected word and no other command does; and only reset
clears it. -/
def Obligations.FaultedChangesOnlyAsSpecified : Prop :=
  (∀ (i : Instr) (s t : State), exec i s = .next t → t.faulted ≠ s.faulted →
      (∃ v : Variant, i = v.instr) ∧ s.len.toNat ≤ s.cap.toNat ∧ ∃ k, k < s.len.toNat ∧ written s.mem (k / 4) = false)
    ∧ (∀ s t : State, step s = .next t → s.faulted = false → t.faulted = true →
      (∃ (v : Variant) (rest : List HostEvent), s.pending = .bus (.write 0x0000#16 (encode v.instr)) :: rest)
        ∧ s.len.toNat ≤ s.cap.toNat ∧ ∃ k, k < s.len.toNat ∧ written s.mem (k / 4) = false)
    ∧ ∀ s t : State, step s = .next t → s.faulted = true → t.faulted = true ∨ ∃ rest, s.pending = .reset :: rest

/-- R311, R46: two HASH commands of one variant, on states that agree on LEN and on m[0 .. LEN), write the same DIGEST and STATUS, whatever else the two states hold. -/
def Obligations.HashDependsOnlyOnItsMessage : Prop :=
  ∀ (v : Variant) (s₁ s₂ t₁ t₂ : State), s₁.len = s₂.len → s₁.len.toNat ≤ s₁.cap.toNat → s₂.len.toNat ≤ s₂.cap.toNat →
    (∀ k, k < s₁.len.toNat → written s₁.mem (k / 4) = true ∧ written s₂.mem (k / 4) = true ∧ readByte s₁.mem k = readByte s₂.mem k) →
    exec v.instr s₁ = .next t₁ → exec v.instr s₂ = .next t₂ → t₁.digest = t₂.digest ∧ t₁.status = t₂.status

/-- The frame of every command: CAP, the buffer and the flags never change, and LEN only by CLEAR (R301); NOP and CLEAR leave `faulted` (R302, R303, R41). The rest is the
model's choice, no rule of the spec: that a command leaves the host's further events (notes/assumptions/7.md) and the last answer (notes/assumptions/9.md), and that NOP and
CLEAR leave the engine's registers (notes/assumptions/4.md) and the count of draws (notes/assumptions/6.md). -/
def Obligations.CommandFrame : Prop :=
  ∀ (i : Instr) (s t : State), exec i s = .next t →
    t.cap = s.cap ∧ t.mem = s.mem ∧ (∀ k, readByte t.mem k = readByte s.mem k) ∧ (∀ j, written t.mem j = written s.mem j)
      ∧ t.pending = s.pending ∧ t.reply = s.reply
      ∧ (i ≠ .clear → t.len = s.len)
      ∧ (i = .nop ∨ i = .clear → t.faulted = s.faulted ∧ t.engine32 = s.engine32 ∧ t.engine64 = s.engine64 ∧ t.draws = s.draws)

/-! ### Command errors (60_exceptions.md) -/

/-- R342, R341, R300: a write to CMD of an illegal word takes the error record with code 1 and the bus answers OK. -/
def Obligations.IllegalWordIsError : Prop :=
  ∀ (s : State) (c : Word32),
    (c.toNat % 256 ∉ [0, 1, 2] ∨ (c.toNat % 256 ∈ [0, 2] ∧ c.toNat / 256 ≠ 0) ∨ (c.toNat % 256 = 1 ∧ c.toNat / 2048 ≠ 0)) →
    ∃ t, step (s.asked (.bus (.write 0x0000#16 c))) = .next t ∧ ErrorRecord 1 s t ∧ t.reply = some ⟨.ok, none⟩

/-- R343, R341, R300: a write to CMD of 0x00000501, 0x00000601 or 0x00000701 takes the error record with code 2 and the bus answers OK. -/
def Obligations.BadVariantIsError : Prop :=
  ∀ (s : State) (c : Word32),
    (c.toNat % 256 = 1 ∧ c.toNat / 2048 = 0 ∧ c.toNat / 256 % 8 ∈ [5, 6, 7]) →
    (c = 0x00000501#32 ∨ c = 0x00000601#32 ∨ c = 0x00000701#32)
      ∧ ∃ t, step (s.asked (.bus (.write 0x0000#16 c))) = .next t ∧ ErrorRecord 2 s t ∧ t.reply = some ⟨.ok, none⟩

/-- R345: of the errors that apply to a command the first is reported: a reserved OP or bit, whatever LEN and the flags; then the variant; then the capacity,
with `faulted` as before; only then the model fault. -/
def Obligations.ErrorPriority : Prop :=
  ∀ (s : State) (c : Word32),
    (c.toNat % 256 ∉ [0, 1, 2] ∨ (c.toNat % 256 ∈ [0, 2] ∧ c.toNat / 256 ≠ 0) ∨ (c.toNat % 256 = 1 ∧ c.toNat / 2048 ≠ 0) →
        ∃ t, step (s.asked (.bus (.write 0x0000#16 c))) = .next t ∧ ErrorRecord 1 s t)
      ∧ (c.toNat % 256 = 1 → c.toNat / 2048 = 0 → 5 ≤ c.toNat / 256 % 8 → ∃ t, step (s.asked (.bus (.write 0x0000#16 c))) = .next t ∧ ErrorRecord 2 s t)
      ∧ (c.toNat % 256 = 1 → c.toNat / 2048 = 0 → c.toNat / 256 % 8 < 5 →
        (s.cap.toNat < s.len.toNat → ∃ t, step (s.asked (.bus (.write 0x0000#16 c))) = .next t ∧ ErrorRecord 3 s t)
          ∧ (s.len.toNat ≤ s.cap.toNat → (∃ k, k < s.len.toNat ∧ written s.mem (k / 4) = false) →
            ∃ t, step (s.asked (.bus (.write 0x0000#16 c))) = .next t ∧ t.faulted = true))

/-! ### The host bus (20_memory.md) -/

/-- R72, R346: a transaction is a bus error exactly where its address is misaligned or unmapped; it then answers ERROR, a read with data 0, and changes nothing.
Every other transaction answers OK (R71). -/
def Obligations.BusErrorExactlyWhereUnmapped : Prop :=
  ∀ (s : State) (a : Addr), Config.LegalMsgCap s.cap →
    ((a.toNat % 4 ≠ 0 ∨ (0x10 ≤ a.toNat ∧ a.toNat < 0x40) ∨ (0x80 ≤ a.toNat ∧ a.toNat < 0x1000) ∨ 0x1000 + s.cap.toNat ≤ a.toNat) →
        step (s.asked (.bus (.read a))) = .next { s with reply := some ⟨.error, some 0x00000000#32⟩ }
          ∧ ∀ v, step (s.asked (.bus (.write a v))) = .next { s with reply := some ⟨.error, none⟩ })
      ∧ (¬(a.toNat % 4 ≠ 0 ∨ (0x10 ≤ a.toNat ∧ a.toNat < 0x40) ∨ (0x80 ≤ a.toNat ∧ a.toNat < 0x1000) ∨ 0x1000 + s.cap.toNat ≤ a.toNat) →
        (∃ t d, step (s.asked (.bus (.read a))) = .next t ∧ t.reply = some ⟨.ok, some d⟩)
          ∧ ∀ v, ∃ t, step (s.asked (.bus (.write a v))) = .next t ∧ t.reply = some ⟨.ok, none⟩)

/-- R75: what a read or a write of each register does; the response is OK. -/
def Obligations.RegisterAccessOutcomes : Prop :=
  ∀ s : State,
    step (s.asked (.bus (.read 0x0004#16))) = .next { s with reply := some ⟨.ok, some s.status⟩ }
    ∧ step (s.asked (.bus (.read 0x0008#16))) = .next { s with reply := some ⟨.ok, some s.len⟩ }
    ∧ (∀ v, step (s.asked (.bus (.write 0x0008#16 v))) = .next { s with len := v, reply := some ⟨.ok, none⟩ })
    ∧ step (s.asked (.bus (.read 0x000C#16))) = .next { s with reply := some ⟨.ok, some s.cap⟩ }
    ∧ (∀ i : Fin 16, step (s.asked (.bus (.read (BitVec.ofNat 16 (0x0040 + 4 * i.val))))) = .next { s with reply := some ⟨.ok, some s.digest[i]⟩ })
    ∧ step (s.asked (.bus (.read 0x0000#16))) = .next { s with reply := some ⟨.ok, some 0x00000000#32⟩ }
    ∧ (∀ c, step (s.asked (.bus (.write 0x0000#16 c))) = answer ⟨.ok, none⟩ (performCommand c s))
    ∧ (∀ v, step (s.asked (.bus (.write 0x0004#16 v))) = .next { s with reply := some ⟨.ok, none⟩ })
    ∧ (∀ v, step (s.asked (.bus (.write 0x000C#16 v))) = .next { s with reply := some ⟨.ok, none⟩ })
    ∧ (∀ (i : Fin 16) (v : Word32),
        step (s.asked (.bus (.write (BitVec.ofNat 16 (0x0040 + 4 * i.val)) v))) = .next { s with reply := some ⟨.ok, none⟩ })

/-- R73: the write of MSG word j stores its four bytes big-endian, sets written[j] and changes no other byte, no other flag and no other state. -/
def Obligations.MsgWriteStoresBigEndian : Prop :=
  ∀ (s : State) (j : Nat) (v : Word32), Config.LegalMsgCap s.cap → 4 * j < s.cap.toNat →
    ∃ t, step (s.asked (.bus (.write (BitVec.ofNat 16 (0x1000 + 4 * j)) v))) = .next t ∧ t.reply = some ⟨.ok, none⟩
      ∧ readByte t.mem (4 * j) = some (v.extractLsb' 24 8) ∧ readByte t.mem (4 * j + 1) = some (v.extractLsb' 16 8)
      ∧ readByte t.mem (4 * j + 2) = some (v.extractLsb' 8 8) ∧ readByte t.mem (4 * j + 3) = some (v.extractLsb' 0 8)
      ∧ written t.mem j = true
      ∧ (∀ k, k < 4 * j ∨ 4 * j + 4 ≤ k → readByte t.mem k = readByte s.mem k) ∧ (∀ j', j' ≠ j → written t.mem j' = written s.mem j')
      ∧ t = { s with mem := t.mem, reply := some ⟨.ok, none⟩ }

/-- R74: the read of MSG word j returns m[4j] ‖ m[4j+1] ‖ m[4j+2] ‖ m[4j+3] where written[j] is true; where it is false it returns a free value (R40). How the draws are
numbered, and that the count goes on by one, is the model's choice (notes/assumptions/6.md). -/
def Obligations.MsgReadReturnsWordOrFreeValue : Prop :=
  ∀ (s : State) (j : Nat), Config.LegalMsgCap s.cap → 4 * j < s.cap.toNat →
    (∀ b0 b1 b2 b3 : Byte, readByte s.mem (4 * j) = some b0 → readByte s.mem (4 * j + 1) = some b1 → readByte s.mem (4 * j + 2) = some b2 →
        readByte s.mem (4 * j + 3) = some b3 →
        step (s.asked (.bus (.read (BitVec.ofNat 16 (0x1000 + 4 * j))))) = .next { s with reply := some ⟨.ok, some (b0 ++ b1 ++ b2 ++ b3)⟩ })
      ∧ (written s.mem j = false →
        step (s.asked (.bus (.read (BitVec.ofNat 16 (0x1000 + 4 * j)))))
          = .next { s with draws := s.draws + 1, reply := some ⟨.ok, some (Config.freeReadWord s.draws)⟩ })

/-- R82: a read of a message word returns what the last write to it wrote, whatever other word was written between them. -/
def Obligations.MsgReadReturnsLastWrite : Prop :=
  ∀ (s t u : State) (j j' : Nat) (v v' : Word32), Config.LegalMsgCap s.cap → 4 * j < s.cap.toNat → 4 * j' < s.cap.toNat → j' ≠ j →
    step (s.asked (.bus (.write (BitVec.ofNat 16 (0x1000 + 4 * j)) v))) = .next t →
    step (t.asked (.bus (.write (BitVec.ofNat 16 (0x1000 + 4 * j')) v'))) = .next u →
    step (u.asked (.bus (.read (BitVec.ofNat 16 (0x1000 + 4 * j))))) = .next { u with reply := some ⟨.ok, some v⟩ }

/-- R78: a read changes nothing but the answer of the bus (and the model's count of draws), and a write to LEN or to a message word is idempotent. -/
def Obligations.ReadsChangeNothingWritesIdempotent : Prop :=
  (∀ (s t : State) (a : Addr), step (s.asked (.bus (.read a))) = .next t → t = { s with reply := t.reply, draws := t.draws })
    ∧ (∀ (s t u : State) (v : Word32), step (s.asked (.bus (.write 0x0008#16 v))) = .next t → step (t.asked (.bus (.write 0x0008#16 v))) = .next u → u = t)
    ∧ (∀ (s t u : State) (j : Nat) (v : Word32), Config.LegalMsgCap s.cap → 4 * j < s.cap.toNat → Memory.wf s.mem = true →
        step (s.asked (.bus (.write (BitVec.ofNat 16 (0x1000 + 4 * j)) v))) = .next t →
        step (t.asked (.bus (.write (BitVec.ofNat 16 (0x1000 + 4 * j)) v))) = .next u → u = t)

/-- R108, R73: storing the words that LOADMSG expands to, from word 0 on, puts the byte string in the buffer, so that it is the message operand of a HASH with
LEN its length (R304). -/
def Obligations.LoadedMessageIsOperand : Prop :=
  ∀ (s : State) (m : List Byte),
    messageOperand (((loadWords m).zipIdx.foldl (fun st vj => st.writeMsgWord vj.2 vj.1) s).mem) m.length = some m

/-- R372, steps 2 to 4: from every state of the machine with a legal capacity, the host's writes of the message words of any m with |m| ≤ MSG_CAP, of LEN and of
the HASH command of v bring the machine, in that many steps, to a state with DIGEST = Hash_v(m) ‖ zeros and STATUS = (v << 1) | 1, whatever the buffer, the registers
and the flags held before. The reads of steps 1, 5 and 6 are R75's. -/
def Obligations.UseSequenceGivesDigest : Prop :=
  ∀ (v : Variant) (s : State) (m : List Byte), Config.LegalMsgCap s.cap → m.length ≤ s.cap.toNat →
    ∃ t : State, Sys2Proof.core.run ((m.length + 3) / 4 + 2) (s.withScript [.loadMsg m, .hash v]) = .next t
      ∧ t.pending = s.pending ∧ t.len.toNat = m.length ∧ t.faulted = s.faulted
      ∧ t.status = ((v.code.setWidth 32) <<< 1) ||| 1#32
      ∧ (∀ i : Fin 16, t.digest[i]
          = BitVec.ofNat 32 (beVal (((hashOf v m ++ List.replicate (64 - v.digestBytes) 0x00#8).drop (4 * i.val)).take 4)))

/-! ### Steps, reset, invariants -/

/-- A step on a command word that decodes is exec of the command, on the state without the event, and the bus answers OK (R300). The host's check of one word
runs through the same event. -/
def Obligations.StepRunsDecodedCommand : Prop :=
  ∀ (s : State) (c : Word32) (i : Instr), decode c = .instr i →
    (∀ rest, s.pending = .bus (.write 0x0000#16 c) :: rest → step s = answer ⟨.ok, none⟩ (exec i { s with pending := rest }))
      ∧ step (s.withFetchWord 32 c.toNat) = answer ⟨.ok, none⟩ (exec i s)

/-- The machine is total: from every state a step gives a next state (R12, R75, R348). The choice that a machine without a pending event idles is the model's
own (notes/assumptions/7.md). -/
def Obligations.EveryStepCompletes : Prop :=
  ∀ s : State, ∃ t, step s = .next t ∧ (s.pending = [] → t = s) ∧ (∀ e rest, s.pending = e :: rest → t.pending = rest)

/-- R49: the values after reset that the table gives: STATUS, LEN and DIGEST zero, CAP the capacity, no flag set, not faulted. The value of the capacity is the
spec's default (notes/assumptions/1.md). -/
def Obligations.ResetValues : Prop :=
  State.reset.status = 0x00000000#32 ∧ State.reset.len = 0x00000000#32 ∧ (∀ i : Fin 16, State.reset.digest[i] = 0x00000000#32)
    ∧ (∀ j, written State.reset.mem j = false) ∧ State.reset.faulted = false ∧ State.reset.cap = 4096#32

/-- R370: the reset event is enabled in every state; it sets STATUS, LEN and DIGEST to zero, clears every flag and `faulted`, and leaves CAP. -/
def Obligations.ResetEventSetsEveryValue : Prop :=
  ∀ s : State, ∃ t, step (s.asked .reset) = .next t ∧ t.status = 0x00000000#32 ∧ t.len = 0x00000000#32 ∧ (∀ i : Fin 16, t.digest[i] = 0x00000000#32)
    ∧ (∀ j, written t.mem j = false) ∧ t.faulted = false ∧ t.cap = s.cap

/-- The invariant holds after reset. -/
def Obligations.InvariantAtReset : Prop :=
  State.reset.Inv

/-- From every state with the invariant, every step gives a state with it: a legal capacity, the buffer in canonical form, within its bounds and in whole words
(R39, R73), a legal STATUS (R32, R34, R35), zeros beyond the digest (R310). -/
def Obligations.EveryStepKeepsInvariant : Prop :=
  ∀ s t : State, s.Inv → step s = .next t → t.Inv

/-- R32, R38, R36, R39, R37: a step changes STATUS or DIGEST only by a command or reset, LEN only by its write, a CLEAR or reset, the buffer only by the write of a
message word or reset, and CAP never. -/
def Obligations.OnlyTheseEventsChangeState : Prop :=
  ∀ (s t : State) (e : HostEvent) (rest : List HostEvent), s.pending = e :: rest → step s = .next t →
    t.cap = s.cap
      ∧ (t.status ≠ s.status ∨ t.digest ≠ s.digest → e = .reset ∨ ∃ c, e = .bus (.write 0x0000#16 c))
      ∧ (t.len ≠ s.len → e = .reset ∨ (∃ v, e = .bus (.write 0x0008#16 v)) ∨ e = .bus (.write 0x0000#16 0x00000002#32))
      ∧ (t.mem ≠ s.mem → e = .reset ∨ ∃ a v, e = .bus (.write a v) ∧ 0x1000 ≤ a.toNat ∧ a.toNat < 0x1000 + s.cap.toNat)

/-- R43, R46: the engine's registers are never observed: two states that differ in them alone step to states that differ in them alone. -/
def Obligations.EngineRegistersNeverObserved : Prop :=
  ∀ (s t t' : State) (e32 : EngineRegs 32) (e64 : EngineRegs 64), step s = .next t → step { s with engine32 := e32, engine64 := e64 } = .next t' →
    t' = { t with engine32 := t'.engine32, engine64 := t'.engine64 }

/-! ### Bit primitives (40_primitives.md) -/

/-- R132: ROTL by n is ROTR by w − n, at every width and for every legal amount. -/
def Obligations.RotlIsRotrOfComplement : Prop :=
  ∀ (w : Nat) (x : BitVec w) (n : Nat) (h : 1 ≤ n ∧ n < w), rotl x n h = rotr x (w - n) (by omega)

/-- R133, U1: the general rotates give no value for the amounts 0 and ≥ w, and one for every other. -/
def Obligations.RotateAmountsRefused : Prop :=
  ∀ (w : Nat) (x : BitVec w) (n : Nat), (rotr? x n = none ↔ n = 0 ∨ w ≤ n) ∧ (rotl? x n = none ↔ n = 0 ∨ w ≤ n)

/-- R134, R135: bit by bit, Ch takes y where x is 1 and z where it is 0, and Maj takes the value that at least two of its inputs hold. -/
def Obligations.ChAndMajBitByBit : Prop :=
  ∀ (w : Nat) (x y z : BitVec w) (i : Nat), i < w →
    (ch x y z).getLsbD i = (if x.getLsbD i then y.getLsbD i else z.getLsbD i)
      ∧ (maj x y z).getLsbD i = (if x.getLsbD i = y.getLsbD i then x.getLsbD i else z.getLsbD i)

/-- R146: over [0, 80) the function that F chooses changes exactly at 20, 40 and 60. -/
def Obligations.SelectorChangesAtBandEdges : Prop :=
  ∀ t t' : Fin 80, t'.val = t.val + 1 → ((∀ x y z, fSel x y z t' = fSel x y z t) ↔ t'.val ∉ [20, 40, 60])

/-! ### Padding and parsing (41_scheduler.md) -/

/-- R182: K is the least K ≥ 0 with L + 1 + K ≡ blockBits − lengthFieldBits (mod blockBits), and it is below blockBits. -/
def Obligations.ZeroBitCountIsLeast : Prop :=
  ∀ bb lf L : Nat, 0 < bb → lf ≤ bb →
    (L + 1 + zeroBits bb lf L) % bb = (bb - lf) % bb ∧ zeroBits bb lf L < bb
      ∧ ∀ K, (L + 1 + K) % bb = (bb - lf) % bb → zeroBits bb lf L ≤ K

/-- R184: the byte-level Pad of each family is the bit-level Pad of R181 to R183, bit for bit. -/
def Obligations.BytePaddingIsBitPadding : Prop :=
  ∀ m : List Byte, bytesBits (pad32 m) = padBits 512 64 (bytesBits m) ∧ bytesBits (pad64 m) = padBits 1024 128 (bytesBits m)

/-- R186: the padded length is a multiple of the block, the trailing length field gives L back exactly, the message stands first and the byte 0x80 follows it. -/
def Obligations.PadRecoversLength : Prop :=
  ∀ m : List Byte,
    (8 * m.length < 2 ^ 64 →
        (8 * (pad32 m).length) % 512 = 0 ∧ beVal ((pad32 m).drop ((pad32 m).length - 8)) = 8 * m.length
          ∧ (pad32 m).take m.length = m ∧ (pad32 m)[m.length]? = some 0x80#8)
      ∧ (8 * m.length < 2 ^ 128 →
        (8 * (pad64 m).length) % 1024 = 0 ∧ beVal ((pad64 m).drop ((pad64 m).length - 16)) = 8 * m.length
          ∧ (pad64 m).take m.length = m ∧ (pad64 m)[m.length]? = some 0x80#8)

/-- R185: the number of blocks of a padded message of n bytes is (n + 8) div 64 + 1 or (n + 16) div 128 + 1. -/
def Obligations.BlockCountOfPaddedMessage : Prop :=
  ∀ m : List Byte,
    (pad32 m).length = 64 * ((m.length + 8) / 64 + 1) ∧ (parse32 (pad32 m)).length = (m.length + 8) / 64 + 1
      ∧ (pad64 m).length = 128 * ((m.length + 16) / 128 + 1) ∧ (parse64 (pad64 m)).length = (m.length + 16) / 128 + 1

/-- R187: word j of block i is the big-endian value of its bytes of the padded string. -/
def Obligations.ParseReadsBigEndianWords : Prop :=
  (∀ (p : List Byte) (N : Nat), p.length = 64 * N → (parse32 p).length = N ∧
      ∀ (i : Nat) (j : Fin 16), i < N →
        ((parse32 p)[i]?).map (fun b => b[j]) = some (BitVec.ofNat 32 (beVal ((p.drop ((16 * i + j.val) * 4)).take 4))))
    ∧ ∀ (p : List Byte) (N : Nat), p.length = 128 * N → (parse64 p).length = N ∧
      ∀ (i : Nat) (j : Fin 16), i < N →
        ((parse64 p)[i]?).map (fun b => b[j]) = some (BitVec.ofNat 64 (beVal ((p.drop ((16 * i + j.val) * 8)).take 8)))

/-- R188: the words of Parse(Pad(M)), each written big-endian in order, are Pad(M) again. -/
def Obligations.ParseRoundTrip : Prop :=
  ∀ m : List Byte,
    serialize32 ((parse32 (pad32 m)).flatMap fun b => b.toList) = pad32 m
      ∧ serialize64 ((parse64 (pad64 m)).flatMap fun b => b.toList) = pad64 m

/-! ### The engines (42_engine32.md, 43_engine64.md) -/

/-- R211: the SHA-1 schedule has 80 entries, the block's words first, then the recurrence. -/
def Obligations.Sha1ScheduleRecurrence : Prop :=
  ∀ b : Block 32, (sha1Schedule b).length = 80
    ∧ (∀ t : Fin 16, (sha1Schedule b).getD t.val 0 = b[t])
    ∧ ∀ t, 16 ≤ t → t < 80 →
        (sha1Schedule b).getD t 0 =
          rotl ((sha1Schedule b).getD (t - 3) 0 ^^^ (sha1Schedule b).getD (t - 8) 0 ^^^ (sha1Schedule b).getD (t - 14) 0
            ^^^ (sha1Schedule b).getD (t - 16) 0) 1

/-- R216: the SHA-224/256 schedule has 64 entries, the block's words first, then the recurrence. -/
def Obligations.Sha256ScheduleRecurrence : Prop :=
  ∀ b : Block 32, (sha256Schedule b).length = 64
    ∧ (∀ t : Fin 16, (sha256Schedule b).getD t.val 0 = b[t])
    ∧ ∀ t, 16 ≤ t → t < 64 →
        (sha256Schedule b).getD t 0 =
          smallSigma1_32 ((sha256Schedule b).getD (t - 2) 0) + (sha256Schedule b).getD (t - 7) 0
            + smallSigma0_32 ((sha256Schedule b).getD (t - 15) 0) + (sha256Schedule b).getD (t - 16) 0

/-- R260: the SHA-384/512 schedule has 80 entries, the block's words first, then the recurrence. -/
def Obligations.Sha512ScheduleRecurrence : Prop :=
  ∀ b : Block 64, (sha512Schedule b).length = 80
    ∧ (∀ t : Fin 16, (sha512Schedule b).getD t.val 0 = b[t])
    ∧ ∀ t, 16 ≤ t → t < 80 →
        (sha512Schedule b).getD t 0 =
          smallSigma1_64 ((sha512Schedule b).getD (t - 2) 0) + (sha512Schedule b).getD (t - 7) 0
            + smallSigma0_64 ((sha512Schedule b).getD (t - 15) 0) + (sha512Schedule b).getD (t - 16) 0

/-- R210, step c: on a full schedule the rounds of each engine are exactly the rounds t = 0, 1, … in order, round t with K_t and W[t]. -/
def Obligations.RoundsConsumeScheduleInOrder : Prop :=
  (∀ (w : List Word32) (v : Vars5 32), w.length = 80 →
      sha1Rounds w v = (List.finRange 80).foldl (fun v t => sha1Round t v (w.getD t.val 0)) v)
    ∧ (∀ (w : List Word32) (v : Vars8 32), w.length = 64 →
      sha256Rounds w v = (List.range 64).foldl (fun v t => sha256Round (k256.getD t 0) v (w.getD t 0)) v)
    ∧ (∀ (w : List Word64) (v : Vars8 64), w.length = 80 →
      sha512Rounds w v = (List.range 80).foldl (fun v t => sha512Round (k512.getD t 0) v (w.getD t 0)) v)

/-- R210, steps a to d: the blocks are chained: the last block is compressed onto the H that the ones before it gave, and its fold is slot for slot. -/
def Obligations.CompressChainsBlocks : Prop :=
  (∀ (bs : List (Block 32)) (b : Block 32) (iv : Vec5 32),
      compressSha1 [] iv = iv
        ∧ compressSha1 (bs ++ [b]) iv = sha1Fold (compressSha1 bs iv) (sha1Rounds (sha1Schedule b) (sha1Init (compressSha1 bs iv))))
    ∧ (∀ (bs : List (Block 32)) (b : Block 32) (iv : Vec8 32),
      compressSha256 [] iv = iv
        ∧ compressSha256 (bs ++ [b]) iv = sha256Fold (compressSha256 bs iv) (sha256Rounds (sha256Schedule b) (sha256Init (compressSha256 bs iv))))
    ∧ (∀ (bs : List (Block 64)) (b : Block 64) (iv : Vec8 64),
      compressSha512 [] iv = iv
        ∧ compressSha512 (bs ++ [b]) iv = sha512Fold (compressSha512 bs iv) (sha512Rounds (sha512Schedule b) (sha512Init (compressSha512 bs iv))))

/-- R225, R268: truncation only drops trailing bytes: SHA-224 is the first 28 of the 32 bytes of the SHA-256 computation with its own initial vector, SHA-384 the
first 48 of the 64 of the SHA-512 computation with its own. -/
def Obligations.TruncationDropsTrailingBytes : Prop :=
  ∀ m : List Byte,
    finalSha224 m = compressSha256 (parse32 (pad32 m)) ivSha224 ∧ finalSha384 m = compressSha512 (parse64 (pad64 m)) ivSha384
      ∧ hashSha224 m = (serialize32 (finalSha224 m).toList).take 28 ∧ hashSha384 m = (serialize64 (finalSha384 m).toList).take 48

/-- R261, R266: the high halves of the first 64 entries of K512 are K256, and the low halves of IV_SHA384 are IV_SHA224. -/
def Obligations.ConstantTablesAgree : Prop :=
  k256.length = 64 ∧ k512.length = 80 ∧ (k512.take 64).map (fun k => k.extractLsb' 32 32) = k256
    ∧ ivSha384.toList.map (fun h => h.extractLsb' 0 32) = ivSha224.toList

/-- The digests of "abc" in all five variants (examples of R226, R227, R228, R269 and R270). -/
def Obligations.KnownAnswersOfAbc : Prop :=
  hashSha1 [0x61#8, 0x62#8, 0x63#8] = be 20 0xa9993e364706816aba3e25717850c26c9cd0d89d
    ∧ hashSha224 [0x61#8, 0x62#8, 0x63#8] = be 28 0x23097d223405d8228642a477bda255b32aadbce4bda0b3f7e36c9da7
    ∧ hashSha256 [0x61#8, 0x62#8, 0x63#8] = be 32 0xba7816bf8f01cfea414140de5dae2223b00361a396177a9cb410ff61f20015ad
    ∧ hashSha384 [0x61#8, 0x62#8, 0x63#8]
        = be 48 0xcb00753f45a35e8bb5a03d699ac65007272c32ab0eded1631a8b605a43ff5bed8086072ba1e7cc2358baeca134c825a7
    ∧ hashSha512 [0x61#8, 0x62#8, 0x63#8]
        = be 64 0xddaf35a193617abacc417349ae20413112e6fa4e89a97ea20a9eeee64b55d39a2192992a274fc1a836ba3c23a3feebbd454d4423643ce80e2a9ac94fa54ca49f
end

