-- ==== Sys2Proof/Laws/Bytes.lean ====
section
/-! SUPPORT. The big-endian encoding and its inverse. -/

namespace Sys2Proof.Machine

@[simp] theorem be_length (k v : Nat) : (be k v).length = k := by
  induction k with
  | zero => rfl
  | succ k ih => simp [be, ih]

theorem foldl_beVal (acc : Nat) (bs : List Byte) :
    bs.foldl (fun acc b => acc * 256 + b.toNat) acc = acc * 256 ^ bs.length + beVal bs := by
  induction bs generalizing acc with
  | nil => simp [beVal]
  | cons b bs ih =>
    simp only [List.foldl_cons, List.length_cons, beVal]
    rw [ih, ih (0 * 256 + b.toNat)]
    ring

@[simp] theorem beVal_nil : beVal [] = 0 := rfl

@[simp] theorem beVal_cons (b : Byte) (bs : List Byte) : beVal (b :: bs) = b.toNat * 256 ^ bs.length + beVal bs := by
  rw [beVal, List.foldl_cons, foldl_beVal]
  simp

theorem beVal_lt (bs : List Byte) : beVal bs < 256 ^ bs.length := by
  induction bs with
  | nil => simp
  | cons b bs ih =>
    have hb : b.toNat < 256 := b.isLt
    have : b.toNat * 256 ^ bs.length + 256 ^ bs.length ≤ 256 ^ bs.length * 256 := by nlinarith [pow_pos (show 0 < 256 by norm_num) bs.length]
    simp only [beVal_cons, List.length_cons, pow_succ]
    omega

theorem beVal_append (as bs : List Byte) : beVal (as ++ bs) = beVal as * 256 ^ bs.length + beVal bs := by
  rw [beVal, List.foldl_append, foldl_beVal]
  rfl

/-- BEval is the inverse of BE_k, modulo 2^(8k). -/
theorem beVal_be (k v : Nat) : beVal (be k v) = v % 256 ^ k := by
  induction k with
  | zero => simp [be, Nat.mod_one]
  | succ k ih =>
    rw [be, beVal_cons, ih, be_length, BitVec.toNat_ofNat, pow_succ 256 k, Nat.mod_mul (a := 256 ^ k)]
    ring_nf

/-- BE_k is the inverse of BEval. -/
theorem be_beVal (bs : List Byte) : be bs.length (beVal bs) = bs := by
  induction bs with
  | nil => rfl
  | cons b bs ih =>
    have hlt := beVal_lt bs
    have hpos : 0 < 256 ^ bs.length := by positivity
    have key : ∀ (k c v : Nat), v < 256 ^ k → be k (c * 256 ^ k + v) = be k v := by
      intro k
      have aux : ∀ (k' c v : Nat), be k' (c * 256 ^ k' + v) = be k' v := by
        intro k'
        induction k' with
        | zero => intros; rfl
        | succ k' ih' =>
          intro c v
          have e : c * 256 ^ (k' + 1) + v = (c * 256) * 256 ^ k' + v := by ring
          have hp : 0 < 256 ^ k' := by positivity
          simp only [be]
          rw [e, ih']
          congr 1
          apply BitVec.eq_of_toNat_eq
          have hd : (c * 256 * 256 ^ k' + v) / 256 ^ k' = c * 256 + v / 256 ^ k' := by
            rw [Nat.add_comm, Nat.add_mul_div_right _ _ hp]; ring
          rw [hd]
          simp [BitVec.toNat_ofNat, Nat.add_mod]
      exact fun c v _ => aux k c v
    simp only [List.length_cons, be, beVal_cons]
    rw [key _ _ _ hlt, ih]
    congr 1
    apply BitVec.eq_of_toNat_eq
    rw [Nat.add_comm, Nat.add_mul_div_right _ _ hpos, Nat.div_eq_of_lt hlt]
    simp

/-- The four bytes a 32-bit word is stored as, most significant first. -/
theorem be_four (v : Word32) :
    be 4 v.toNat = [v.extractLsb' 24 8, v.extractLsb' 16 8, v.extractLsb' 8 8, v.extractLsb' 0 8] := by
  simp only [be, List.cons.injEq, and_true]
  refine ⟨?_, ?_, ?_, ?_⟩ <;> apply BitVec.eq_of_toNat_eq <;> simp [BitVec.extractLsb', Nat.shiftRight_eq_div_pow]

/-- The word that four bytes encode. -/
theorem ofNat_beVal_four (b0 b1 b2 b3 : Byte) : BitVec.ofNat 32 (beVal [b0, b1, b2, b3]) = (b0 ++ b1 ++ b2 ++ b3 : BitVec 32) := by
  have h0 := b0.isLt
  have h1 := b1.isLt
  have h2 := b2.isLt
  have h3 := b3.isLt
  apply BitVec.eq_of_toNat_eq
  simp only [BitVec.toNat_ofNat, BitVec.toNat_append, beVal_cons, beVal_nil, List.length_cons, List.length_nil]
  rw [← Nat.shiftLeft_add_eq_or_of_lt h1, ← Nat.shiftLeft_add_eq_or_of_lt h2, ← Nat.shiftLeft_add_eq_or_of_lt h3]
  simp only [Nat.shiftLeft_eq]
  omega

/-- A word is stored as four bytes and read back as itself. -/
theorem ofNat_beVal_be_four (v : Word32) : BitVec.ofNat 32 (beVal (be 4 v.toNat)) = v := by
  apply BitVec.eq_of_toNat_eq
  have := v.isLt
  rw [beVal_be, BitVec.toNat_ofNat]
  omega

/-- A 64-bit word is written as eight bytes and read back as itself. -/
theorem ofNat_beVal_be_eight (v : Word64) : BitVec.ofNat 64 (beVal (be 8 v.toNat)) = v := by
  apply BitVec.eq_of_toNat_eq
  have := v.isLt
  rw [beVal_be, BitVec.toNat_ofNat]
  omega

end Sys2Proof.Machine
end

