-- ==== Sys2Proof/Laws/Bits.lean ====
section
/-! SUPPORT. The bits of byte strings, for the two forms of padding. -/

namespace Sys2Proof.Machine

theorem bytesBits_append (a b : List Byte) : bytesBits (a ++ b) = bytesBits a ++ bytesBits b := by
  simp [bytesBits]

theorem bytesBits_cons (b : Byte) (bs : List Byte) : bytesBits (b :: bs) = byteBits b ++ bytesBits bs := rfl

theorem bytesBits_length (m : List Byte) : (bytesBits m).length = 8 * m.length := by
  induction m with
  | nil => rfl
  | cons b m ih =>
    rw [bytesBits_cons, List.length_append, ih]
    simp [byteBits]
    ring

theorem bytesBits_zeros (k : Nat) : bytesBits (List.replicate k 0x00#8) = List.replicate (8 * k) false := by
  induction k with
  | zero => rfl
  | succ k ih =>
    rw [List.replicate_succ, bytesBits_cons, ih, show byteBits 0x00#8 = List.replicate 8 false by decide, List.replicate_append_replicate]
    congr 1
    ring

theorem byteBits_div (n v : Nat) :
    byteBits (BitVec.ofNat 8 (v / 256 ^ n)) =
      [v.testBit (8 * n + 7), v.testBit (8 * n + 6), v.testBit (8 * n + 5), v.testBit (8 * n + 4), v.testBit (8 * n + 3), v.testBit (8 * n + 2),
        v.testBit (8 * n + 1), v.testBit (8 * n)] := by
  have h256 : 256 ^ n = 2 ^ (8 * n) := by rw [pow_mul]; norm_num
  have hb : ∀ i, i < 8 → (BitVec.ofNat 8 (v / 256 ^ n)).getLsbD i = v.testBit (8 * n + i) := by
    intro i hi
    rw [BitVec.getLsbD_ofNat, h256, Nat.testBit_div_two_pow, Nat.add_comm]
    simp [hi]
  have h0 := hb 0 (by norm_num)
  rw [Nat.add_zero] at h0
  simp only [byteBits, BitVec.getMsbD, ← h0, ← hb 1 (by norm_num), ← hb 2 (by norm_num), ← hb 3 (by norm_num), ← hb 4 (by norm_num), ← hb 5 (by norm_num),
    ← hb 6 (by norm_num), ← hb 7 (by norm_num)]
  simp

/-- The bits of a big-endian byte string are the big-endian bits. -/
theorem bytesBits_be (k v : Nat) : bytesBits (be k v) = beBits (8 * k) v := by
  induction k with
  | zero => rfl
  | succ k ih =>
    rw [be, bytesBits_cons, ih, byteBits_div, show 8 * (k + 1) = 8 * k + 1 + 1 + 1 + 1 + 1 + 1 + 1 + 1 by ring]
    simp only [beBits]
    rfl

end Sys2Proof.Machine
end

