-- ==== Sys2Proof/Laws/Memory.lean ====
section
/-! SUPPORT. Reads and writes of the message buffer: a read after a write, the canonical form, whole words, the message operand. -/

namespace Sys2Proof.Machine

@[simp] theorem readByte_nil (k : Nat) : readByte [] k = none := rfl

/-- A read after a write: the byte written, and every other byte as before. -/
theorem readByte_writeByte (m : Memory) (k k' : Nat) (b : Byte) :
    readByte (writeByte m k b) k' = if k' = k then some b else readByte m k' := by
  induction m with
  | nil => simp [writeByte, readByte]
  | cons c rest ih =>
    obtain ⟨a, b'⟩ := c
    simp only [writeByte]
    split
    · simp [readByte]
    · split
      · subst k
        simp only [readByte]
        split <;> rfl
      · simp only [readByte, ih]
        split
        · rename_i hne heq
          rw [heq, if_neg (by omega)]
        · rfl

/-- A memory is canonical when its tail is and its first offset is below every other. -/
theorem memWf_cons (c : Host.Cell) (m : Memory) : Memory.wf (c :: m) = true ↔ (∀ d ∈ m, c.1 < d.1) ∧ Memory.wf m = true := by
  induction m generalizing c with
  | nil => simp [Memory.wf]
  | cons d m ih =>
    simp only [Memory.wf, Bool.and_eq_true, decide_eq_true_eq, List.mem_cons, forall_eq_or_imp]
    rw [ih d]
    constructor
    · rintro ⟨h, h', hw⟩
      exact ⟨⟨h, fun e he => h.trans (h' e he)⟩, h', hw⟩
    · rintro ⟨⟨h, _⟩, h', hw⟩
      exact ⟨h, h', hw⟩

theorem mem_writeByte (m : Memory) (k : Nat) (b : Byte) (d : Host.Cell) (h : d ∈ writeByte m k b) : d.1 = k ∨ d ∈ m := by
  induction m with
  | nil => simp [writeByte] at h; simp [h]
  | cons c rest ih =>
    obtain ⟨a, b'⟩ := c
    simp only [writeByte] at h
    split at h
    · rcases List.mem_cons.mp h with h | h
      · left; rw [h]
      · right; exact h
    · split at h
      · rcases List.mem_cons.mp h with h | h
        · left; rw [h]
        · right; exact List.mem_cons_of_mem _ h
      · rcases List.mem_cons.mp h with h | h
        · right; rw [h]; exact List.mem_cons_self ..
        · rcases ih h with h | h
          · exact .inl h
          · exact .inr (List.mem_cons_of_mem _ h)

/-- A write keeps the canonical form. -/
theorem writeByte_wf (m : Memory) (k : Nat) (b : Byte) (h : Memory.wf m = true) : Memory.wf (writeByte m k b) = true := by
  induction m with
  | nil => rfl
  | cons c rest ih =>
    obtain ⟨a, b'⟩ := c
    have hc := (memWf_cons _ _).mp h
    simp only [writeByte]
    split
    · rename_i hlt
      refine (memWf_cons _ _).mpr ⟨?_, h⟩
      intro d hd
      rcases List.mem_cons.mp hd with rfl | hd
      · exact hlt
      · exact lt_trans hlt (hc.1 d hd)
    · split
      · rename_i hlt heq
        subst heq
        exact (memWf_cons _ _).mpr hc
      · rename_i hlt hne
        refine (memWf_cons _ _).mpr ⟨?_, ih hc.2⟩
        intro d hd
        rcases mem_writeByte _ _ _ _ hd with hd | hd
        · simp only; omega
        · exact hc.1 d hd

theorem writeBytes_wf (m : Memory) (a : Nat) (bs : List Byte) (h : Memory.wf m = true) : Memory.wf (writeBytes m a bs) = true := by
  induction bs generalizing m a with
  | nil => exact h
  | cons b bs ih => exact ih _ _ (writeByte_wf _ _ _ h)

/-- The write of a word keeps the canonical form. -/
theorem memWrite_wf (m : Memory) (a n v : Nat) (h : Memory.wf m = true) : Memory.wf (memWrite m a n v) = true :=
  writeBytes_wf _ _ _ h

/-- A read after the write of several bytes. -/
theorem readByte_writeBytes (m : Memory) (a k : Nat) (bs : List Byte) :
    readByte (writeBytes m a bs) k = if a ≤ k ∧ k < a + bs.length then bs[k - a]? else readByte m k := by
  induction bs generalizing m a with
  | nil => rw [if_neg (by simp)]; rfl
  | cons b bs ih =>
    rw [writeBytes, ih, readByte_writeByte]
    simp only [List.length_cons]
    by_cases h1 : a + 1 ≤ k ∧ k < a + 1 + bs.length
    · rw [if_pos h1, if_pos (by omega)]
      have : k - a = (k - (a + 1)) + 1 := by omega
      rw [this, List.getElem?_cons_succ]
    · rw [if_neg h1]
      by_cases h2 : k = a
      · subst h2
        rw [if_pos rfl, if_pos (by omega)]
        simp
      · rw [if_neg h2, if_neg (by omega)]

/-- A read after the write of a message word. -/
theorem readByte_memWrite (m : Memory) (a n v k : Nat) :
    readByte (memWrite m a n v) k = if a ≤ k ∧ k < a + n then (be n v)[k - a]? else readByte m k := by
  rw [memWrite, readByte_writeBytes, be_length]

/-- The bytes read are those of the offsets, in order. -/
theorem readBytes_eq_some (m : Memory) (a n : Nat) (bs : List Byte) :
    readBytes m a n = some bs ↔ bs.length = n ∧ ∀ k, k < n → readByte m (a + k) = bs[k]? := by
  induction n generalizing a bs with
  | zero =>
    simp only [readBytes, Option.some.injEq, Nat.not_lt_zero, false_implies, implies_true, and_true]
    constructor
    · rintro rfl; rfl
    · intro h; exact (List.eq_nil_of_length_eq_zero h).symm
  | succ n ih =>
    simp only [readBytes]
    constructor
    · intro h
      split at h
      · rename_i b rest hb hrest
        obtain ⟨hl, hk⟩ := (ih _ _).mp hrest
        cases h
        refine ⟨by simp [hl], ?_⟩
        intro k hlt
        cases k with
        | zero => simpa using hb
        | succ k =>
          have := hk k (by omega)
          rw [show a + (k + 1) = a + 1 + k by ring, this]
          simp
      · cases h
    · rintro ⟨hl, hk⟩
      cases bs with
      | nil => simp at hl
      | cons b rest =>
        have h0 := hk 0 (by omega)
        have hr : readBytes m (a + 1) n = some rest := by
          refine (ih _ _).mpr ⟨by simpa using hl, ?_⟩
          intro k hlt
          have := hk (k + 1) (by omega)
          rw [show a + 1 + k = a + (k + 1) by ring, this]
          simp
        simp only [Nat.add_zero, List.getElem?_cons_zero] at h0
        rw [h0, hr]

theorem readBytes_isSome (m : Memory) (a n : Nat) : (readBytes m a n).isSome = true ↔ ∀ k, k < n → (readByte m (a + k)).isSome = true := by
  induction n generalizing a with
  | zero => simp [readBytes]
  | succ n ih =>
    simp only [readBytes]
    constructor
    · intro h
      split at h
      · rename_i b rest hb hrest
        intro k hlt
        cases k with
        | zero => simp [hb]
        | succ k =>
          have := (ih (a + 1)).mp (by simp [hrest]) k (by omega)
          rwa [show a + 1 + k = a + (k + 1) by ring] at this
      · simp at h
    · intro h
      have h0 := h 0 (by omega)
      have hr := (ih (a + 1)).mpr fun k hk => by
        have := h (k + 1) (by omega)
        rwa [show a + (k + 1) = a + 1 + k by ring] at this
      obtain ⟨b, hb⟩ := Option.isSome_iff_exists.mp h0
      obtain ⟨rest, hrest⟩ := Option.isSome_iff_exists.mp hr
      simp only [Nat.add_zero] at hb
      rw [hb, hrest]
      rfl

/-- written[j] says that the four bytes of word j are there. -/
theorem written_iff (m : Memory) (j : Nat) : written m j = true ↔ ∀ k, k < 4 → (readByte m (4 * j + k)).isSome = true :=
  readBytes_isSome m (4 * j) 4

/-- A word written by the host is there; every other word's flag is as before. -/
theorem written_memWrite (m : Memory) (j j' v : Nat) : written (memWrite m (4 * j) 4 v) j' = (decide (j' = j) || written m j') := by
  rw [Bool.eq_iff_iff, Bool.or_eq_true, written_iff, written_iff, decide_eq_true_eq]
  constructor
  · intro h
    by_cases hj : j' = j
    · exact .inl hj
    · right
      intro k hk
      have := h k hk
      rwa [readByte_memWrite, if_neg (by omega)] at this
  · intro h k hk
    rw [readByte_memWrite]
    split
    · rename_i hr
      rw [List.getElem?_eq_getElem (by rw [be_length]; omega)]
      rfl
    · rename_i hr
      rcases h with rfl | h
      · omega
      · exact h k hk

theorem readMsgWord_eq_none (m : Memory) (j : Nat) : readMsgWord m j = none ↔ written m j = false := by
  simp [readMsgWord, memRead, written]

/-- Two memories that read alike, byte for byte, read alike in several bytes. -/
theorem readBytes_congr (m m' : Memory) (a n : Nat) (h : ∀ k, k < n → readByte m (a + k) = readByte m' (a + k)) : readBytes m a n = readBytes m' a n := by
  induction n generalizing a with
  | zero => rfl
  | succ n ih =>
    have h0 := h 0 (by omega)
    rw [Nat.add_zero] at h0
    simp only [readBytes]
    rw [h0, ih (a + 1) fun k hk => by rw [show a + 1 + k = a + (k + 1) by ring]; exact h _ (by omega)]

/-- The check of exec_HASH, byte by byte as R304 writes it. -/
theorem consumedWritten_iff (m : Memory) (n : Nat) : consumedWritten m n = true ↔ ∀ k, k < n → written m (k / 4) = true := by
  simp only [consumedWritten, List.all_eq_true, List.mem_range]
  constructor
  · intro h k hk
    exact h _ (by omega)
  · intro h j hj
    have := h (4 * j) (by omega)
    rwa [Nat.mul_div_cancel_left _ (by norm_num)] at this

/-- The message operand is the message that stands in the buffer, where each word it touches was written. -/
theorem messageOperand_eq_some (m : Memory) (n : Nat) (bs : List Byte) :
    messageOperand m n = some bs ↔ bs.length = n ∧ ∀ k, k < n → written m (k / 4) = true ∧ readByte m k = bs[k]? := by
  simp only [messageOperand]
  split
  · rename_i h
    rw [readBytes_eq_some]
    simp only [Nat.zero_add]
    have hw := (consumedWritten_iff m n).mp h
    constructor
    · rintro ⟨hl, hk⟩
      exact ⟨hl, fun k hlt => ⟨hw k hlt, hk k hlt⟩⟩
    · rintro ⟨hl, hk⟩
      exact ⟨hl, fun k hlt => (hk k hlt).2⟩
  · rename_i h
    simp only [reduceCtorEq, false_iff, not_and]
    intro _ hk
    exact h ((consumedWritten_iff m n).mpr fun k hlt => (hk k hlt).1)

/-- There is no message operand exactly where a byte of a never-written word would be consumed. -/
theorem messageOperand_eq_none (m : Memory) (n : Nat) : messageOperand m n = none ↔ ∃ k, k < n ∧ written m (k / 4) = false := by
  simp only [messageOperand]
  split
  · rename_i h
    have hw := (consumedWritten_iff m n).mp h
    constructor
    · intro hn
      exfalso
      have : (readBytes m 0 n).isSome = true := by
        rw [readBytes_isSome]
        intro k hk
        have := (written_iff m (k / 4)).mp (hw k hk) (k % 4) (by omega)
        rwa [Nat.div_add_mod, ← Nat.zero_add k] at this
      simp [hn] at this
    · rintro ⟨k, hk, hf⟩
      rw [hw k hk] at hf
      cases hf
  · rename_i h
    refine ⟨fun _ => ?_, fun _ => rfl⟩
    by_contra hc
    push Not at hc
    exact h ((consumedWritten_iff m n).mpr fun k hk => by simpa using hc k hk)

/-- A message word read after a write: the word written, and every other word as before (R73, R74, R82). -/
theorem readMsgWord_memWrite (m : Memory) (j j' : Nat) (v : Word32) :
    readMsgWord (memWrite m (4 * j) 4 v.toNat) j' = if j' = j then some v else readMsgWord m j' := by
  split
  · rename_i h
    subst h
    have hb : readBytes (memWrite m (4 * j') 4 v.toNat) (4 * j') 4 = some (be 4 v.toNat) := by
      rw [readBytes_eq_some]
      refine ⟨by simp, fun k hk => ?_⟩
      rw [readByte_memWrite, if_pos (by omega)]
      congr 1
      omega
    simp only [readMsgWord, memRead, hb, Option.map_some, ofNat_beVal_be_four]
  · rename_i h
    simp only [readMsgWord, memRead]
    rw [readBytes_congr _ m]
    intro k hk
    rw [readByte_memWrite, if_neg (by omega)]

/-- The message word that four listed bytes make (R74). -/
theorem readMsgWord_of_bytes {m : Memory} {j : Nat} {b0 b1 b2 b3 : Byte} (h0 : readByte m (4 * j) = some b0) (h1 : readByte m (4 * j + 1) = some b1)
    (h2 : readByte m (4 * j + 2) = some b2) (h3 : readByte m (4 * j + 3) = some b3) : readMsgWord m j = some (b0 ++ b1 ++ b2 ++ b3) := by
  have hb : readBytes m (4 * j) 4 = some [b0, b1, b2, b3] := by
    rw [readBytes_eq_some]
    refine ⟨rfl, fun k hk => ?_⟩
    have hk' : k = 0 ∨ k = 1 ∨ k = 2 ∨ k = 3 := by omega
    rcases hk' with rfl | rfl | rfl | rfl <;> simp [*]
  simp only [readMsgWord, memRead, hb, Option.map_some, ofNat_beVal_four]

theorem memWf_pairwise {m : Memory} (h : Memory.wf m = true) : m.Pairwise fun x y => x.1 < y.1 := by
  induction m with
  | nil => exact .nil
  | cons c rest ih =>
    have hc := (memWf_cons _ _).mp h
    exact .cons hc.1 (ih hc.2)

/-- In a canonical memory a cell is listed exactly where it is read. -/
theorem mem_iff_readByte {m : Memory} (h : Memory.wf m = true) (k : Nat) (b : Byte) : (k, b) ∈ m ↔ readByte m k = some b := by
  induction m with
  | nil => simp [readByte]
  | cons c rest ih =>
    obtain ⟨a, b'⟩ := c
    have hc := (memWf_cons _ _).mp h
    simp only [List.mem_cons, readByte, Prod.mk.injEq]
    split
    · rename_i he
      subst he
      constructor
      · rintro (⟨_, rfl⟩ | hm)
        · rfl
        · have := hc.1 _ hm
          simp at this
      · intro h
        cases h
        exact .inl ⟨rfl, rfl⟩
    · rename_i hne
      rw [← ih hc.2]
      simp [hne]

/-- Canonical memories that read alike are equal. -/
theorem memory_ext {m m' : Memory} (h : Memory.wf m = true) (h' : Memory.wf m' = true) (he : ∀ k, readByte m k = readByte m' k) : m = m' := by
  apply List.Perm.eq_of_pairwise (le := fun x y => x.1 < y.1)
  · intro a b _ _ h1 h2
    omega
  · exact memWf_pairwise h
  · exact memWf_pairwise h'
  · rw [List.perm_ext_iff_of_nodup]
    · rintro ⟨k, b⟩
      rw [mem_iff_readByte h, mem_iff_readByte h', he]
    · exact (memWf_pairwise h).imp fun hlt => by rintro rfl; simp at hlt
    · exact (memWf_pairwise h').imp fun hlt => by rintro rfl; simp at hlt

end Sys2Proof.Machine
end

