-- ==== Sys2Proof/Laws/State.lean ====
section
/-! SUPPORT. One lemma per field of State per update of Machine/Ops.lean and Machine/Bus.lean, so that no proof unfolds a record update. -/

namespace Sys2Proof.Machine

variable (s : State)

@[simp] theorem writeMsgWord_status (j : Nat) (v : Word32) : (s.writeMsgWord j v).status = s.status := rfl
@[simp] theorem writeMsgWord_len (j : Nat) (v : Word32) : (s.writeMsgWord j v).len = s.len := rfl
@[simp] theorem writeMsgWord_cap (j : Nat) (v : Word32) : (s.writeMsgWord j v).cap = s.cap := rfl
@[simp] theorem writeMsgWord_digest (j : Nat) (v : Word32) : (s.writeMsgWord j v).digest = s.digest := rfl
@[simp] theorem writeMsgWord_mem (j : Nat) (v : Word32) : (s.writeMsgWord j v).mem = memWrite s.mem (4 * j) 4 v.toNat := rfl
@[simp] theorem writeMsgWord_faulted (j : Nat) (v : Word32) : (s.writeMsgWord j v).faulted = s.faulted := rfl
@[simp] theorem writeMsgWord_engine32 (j : Nat) (v : Word32) : (s.writeMsgWord j v).engine32 = s.engine32 := rfl
@[simp] theorem writeMsgWord_engine64 (j : Nat) (v : Word32) : (s.writeMsgWord j v).engine64 = s.engine64 := rfl
@[simp] theorem writeMsgWord_pending (j : Nat) (v : Word32) : (s.writeMsgWord j v).pending = s.pending := rfl
@[simp] theorem writeMsgWord_reply (j : Nat) (v : Word32) : (s.writeMsgWord j v).reply = s.reply := rfl
@[simp] theorem writeMsgWord_draws (j : Nat) (v : Word32) : (s.writeMsgWord j v).draws = s.draws := rfl

@[simp] theorem setLen_status (v : Word32) : (s.setLen v).status = s.status := rfl
@[simp] theorem setLen_len (v : Word32) : (s.setLen v).len = v := rfl
@[simp] theorem setLen_cap (v : Word32) : (s.setLen v).cap = s.cap := rfl
@[simp] theorem setLen_digest (v : Word32) : (s.setLen v).digest = s.digest := rfl
@[simp] theorem setLen_mem (v : Word32) : (s.setLen v).mem = s.mem := rfl
@[simp] theorem setLen_faulted (v : Word32) : (s.setLen v).faulted = s.faulted := rfl
@[simp] theorem setLen_engine32 (v : Word32) : (s.setLen v).engine32 = s.engine32 := rfl
@[simp] theorem setLen_engine64 (v : Word32) : (s.setLen v).engine64 = s.engine64 := rfl
@[simp] theorem setLen_pending (v : Word32) : (s.setLen v).pending = s.pending := rfl
@[simp] theorem setLen_reply (v : Word32) : (s.setLen v).reply = s.reply := rfl
@[simp] theorem setLen_draws (v : Word32) : (s.setLen v).draws = s.draws := rfl

@[simp] theorem setReply_status (r : Reply) : (s.setReply r).status = s.status := rfl
@[simp] theorem setReply_len (r : Reply) : (s.setReply r).len = s.len := rfl
@[simp] theorem setReply_cap (r : Reply) : (s.setReply r).cap = s.cap := rfl
@[simp] theorem setReply_digest (r : Reply) : (s.setReply r).digest = s.digest := rfl
@[simp] theorem setReply_mem (r : Reply) : (s.setReply r).mem = s.mem := rfl
@[simp] theorem setReply_faulted (r : Reply) : (s.setReply r).faulted = s.faulted := rfl
@[simp] theorem setReply_engine32 (r : Reply) : (s.setReply r).engine32 = s.engine32 := rfl
@[simp] theorem setReply_engine64 (r : Reply) : (s.setReply r).engine64 = s.engine64 := rfl
@[simp] theorem setReply_pending (r : Reply) : (s.setReply r).pending = s.pending := rfl
@[simp] theorem setReply_reply (r : Reply) : (s.setReply r).reply = some r := rfl
@[simp] theorem setReply_draws (r : Reply) : (s.setReply r).draws = s.draws := rfl

@[simp] theorem drawn_status : (s.drawn).status = s.status := rfl
@[simp] theorem drawn_len : (s.drawn).len = s.len := rfl
@[simp] theorem drawn_cap : (s.drawn).cap = s.cap := rfl
@[simp] theorem drawn_digest : (s.drawn).digest = s.digest := rfl
@[simp] theorem drawn_mem : (s.drawn).mem = s.mem := rfl
@[simp] theorem drawn_faulted : (s.drawn).faulted = s.faulted := rfl
@[simp] theorem drawn_engine32 : (s.drawn).engine32 = s.engine32 := rfl
@[simp] theorem drawn_engine64 : (s.drawn).engine64 = s.engine64 := rfl
@[simp] theorem drawn_pending : (s.drawn).pending = s.pending := rfl
@[simp] theorem drawn_reply : (s.drawn).reply = s.reply := rfl
@[simp] theorem drawn_draws : (s.drawn).draws = s.draws + 1 := rfl

@[simp] theorem raiseCmdError_status (e : CmdError) : (s.raiseCmdError e).status = errStatus e := rfl
@[simp] theorem raiseCmdError_len (e : CmdError) : (s.raiseCmdError e).len = s.len := rfl
@[simp] theorem raiseCmdError_cap (e : CmdError) : (s.raiseCmdError e).cap = s.cap := rfl
@[simp] theorem raiseCmdError_digest (e : CmdError) : (s.raiseCmdError e).digest = Vector.replicate 16 0x00000000#32 := rfl
@[simp] theorem raiseCmdError_mem (e : CmdError) : (s.raiseCmdError e).mem = s.mem := rfl
@[simp] theorem raiseCmdError_faulted (e : CmdError) : (s.raiseCmdError e).faulted = s.faulted := rfl
@[simp] theorem raiseCmdError_engine32 (e : CmdError) : (s.raiseCmdError e).engine32 = s.engine32 := rfl
@[simp] theorem raiseCmdError_engine64 (e : CmdError) : (s.raiseCmdError e).engine64 = s.engine64 := rfl
@[simp] theorem raiseCmdError_pending (e : CmdError) : (s.raiseCmdError e).pending = s.pending := rfl
@[simp] theorem raiseCmdError_reply (e : CmdError) : (s.raiseCmdError e).reply = s.reply := rfl
@[simp] theorem raiseCmdError_draws (e : CmdError) : (s.raiseCmdError e).draws = s.draws := rfl

@[simp] theorem discardEngines_status : (s.discardEngines).status = s.status := rfl
@[simp] theorem discardEngines_len : (s.discardEngines).len = s.len := rfl
@[simp] theorem discardEngines_cap : (s.discardEngines).cap = s.cap := rfl
@[simp] theorem discardEngines_digest : (s.discardEngines).digest = s.digest := rfl
@[simp] theorem discardEngines_mem : (s.discardEngines).mem = s.mem := rfl
@[simp] theorem discardEngines_faulted : (s.discardEngines).faulted = s.faulted := rfl
@[simp] theorem discardEngines_engine32 : (s.discardEngines).engine32 = Config.freeEngine32 s.draws := rfl
@[simp] theorem discardEngines_engine64 : (s.discardEngines).engine64 = Config.freeEngine64 s.draws := rfl
@[simp] theorem discardEngines_pending : (s.discardEngines).pending = s.pending := rfl
@[simp] theorem discardEngines_reply : (s.discardEngines).reply = s.reply := rfl
@[simp] theorem discardEngines_draws : (s.discardEngines).draws = s.draws + 1 := rfl

@[simp] theorem emitDigest_status (v : Variant) (d : List Byte) : (s.emitDigest v d).status = hashStatus v := rfl
@[simp] theorem emitDigest_len (v : Variant) (d : List Byte) : (s.emitDigest v d).len = s.len := rfl
@[simp] theorem emitDigest_cap (v : Variant) (d : List Byte) : (s.emitDigest v d).cap = s.cap := rfl
@[simp] theorem emitDigest_digest (v : Variant) (d : List Byte) : (s.emitDigest v d).digest = packDigest (d ++ List.replicate (64 - v.digestBytes) 0x00#8) := rfl
@[simp] theorem emitDigest_mem (v : Variant) (d : List Byte) : (s.emitDigest v d).mem = s.mem := rfl
@[simp] theorem emitDigest_faulted (v : Variant) (d : List Byte) : (s.emitDigest v d).faulted = s.faulted := rfl
@[simp] theorem emitDigest_engine32 (v : Variant) (d : List Byte) : (s.emitDigest v d).engine32 = Config.freeEngine32 s.draws := rfl
@[simp] theorem emitDigest_engine64 (v : Variant) (d : List Byte) : (s.emitDigest v d).engine64 = Config.freeEngine64 s.draws := rfl
@[simp] theorem emitDigest_pending (v : Variant) (d : List Byte) : (s.emitDigest v d).pending = s.pending := rfl
@[simp] theorem emitDigest_reply (v : Variant) (d : List Byte) : (s.emitDigest v d).reply = s.reply := rfl
@[simp] theorem emitDigest_draws (v : Variant) (d : List Byte) : (s.emitDigest v d).draws = s.draws + 1 := rfl

@[simp] theorem modelFault_status : (s.modelFault).status = freeLegalStatus s.draws := rfl
@[simp] theorem modelFault_len : (s.modelFault).len = s.len := rfl
@[simp] theorem modelFault_cap : (s.modelFault).cap = s.cap := rfl
@[simp] theorem modelFault_digest : (s.modelFault).digest = Config.freeDigest s.draws := rfl
@[simp] theorem modelFault_mem : (s.modelFault).mem = s.mem := rfl
@[simp] theorem modelFault_faulted : (s.modelFault).faulted = true := rfl
@[simp] theorem modelFault_engine32 : (s.modelFault).engine32 = Config.freeEngine32 s.draws := rfl
@[simp] theorem modelFault_engine64 : (s.modelFault).engine64 = Config.freeEngine64 s.draws := rfl
@[simp] theorem modelFault_pending : (s.modelFault).pending = s.pending := rfl
@[simp] theorem modelFault_reply : (s.modelFault).reply = s.reply := rfl
@[simp] theorem modelFault_draws : (s.modelFault).draws = s.draws + 1 := rfl

@[simp] theorem clearRegs_status : (s.clearRegs).status = 0x00000000#32 := rfl
@[simp] theorem clearRegs_len : (s.clearRegs).len = 0x00000000#32 := rfl
@[simp] theorem clearRegs_cap : (s.clearRegs).cap = s.cap := rfl
@[simp] theorem clearRegs_digest : (s.clearRegs).digest = Vector.replicate 16 0x00000000#32 := rfl
@[simp] theorem clearRegs_mem : (s.clearRegs).mem = s.mem := rfl
@[simp] theorem clearRegs_faulted : (s.clearRegs).faulted = s.faulted := rfl
@[simp] theorem clearRegs_engine32 : (s.clearRegs).engine32 = s.engine32 := rfl
@[simp] theorem clearRegs_engine64 : (s.clearRegs).engine64 = s.engine64 := rfl
@[simp] theorem clearRegs_pending : (s.clearRegs).pending = s.pending := rfl
@[simp] theorem clearRegs_reply : (s.clearRegs).reply = s.reply := rfl
@[simp] theorem clearRegs_draws : (s.clearRegs).draws = s.draws := rfl

@[simp] theorem resetEvent_status : (s.resetEvent).status = 0x00000000#32 := rfl
@[simp] theorem resetEvent_len : (s.resetEvent).len = 0x00000000#32 := rfl
@[simp] theorem resetEvent_cap : (s.resetEvent).cap = s.cap := rfl
@[simp] theorem resetEvent_digest : (s.resetEvent).digest = Vector.replicate 16 0x00000000#32 := rfl
@[simp] theorem resetEvent_mem : (s.resetEvent).mem = [] := rfl
@[simp] theorem resetEvent_faulted : (s.resetEvent).faulted = false := rfl
@[simp] theorem resetEvent_engine32 : (s.resetEvent).engine32 = EngineRegs.atReset 32 := rfl
@[simp] theorem resetEvent_engine64 : (s.resetEvent).engine64 = EngineRegs.atReset 64 := rfl
@[simp] theorem resetEvent_pending : (s.resetEvent).pending = s.pending := rfl
@[simp] theorem resetEvent_reply : (s.resetEvent).reply = none := rfl
@[simp] theorem resetEvent_draws : (s.resetEvent).draws = s.draws := rfl

@[simp] theorem taken_status (rest : List HostEvent) : (s.taken rest).status = s.status := rfl
@[simp] theorem taken_len (rest : List HostEvent) : (s.taken rest).len = s.len := rfl
@[simp] theorem taken_cap (rest : List HostEvent) : (s.taken rest).cap = s.cap := rfl
@[simp] theorem taken_digest (rest : List HostEvent) : (s.taken rest).digest = s.digest := rfl
@[simp] theorem taken_mem (rest : List HostEvent) : (s.taken rest).mem = s.mem := rfl
@[simp] theorem taken_faulted (rest : List HostEvent) : (s.taken rest).faulted = s.faulted := rfl
@[simp] theorem taken_engine32 (rest : List HostEvent) : (s.taken rest).engine32 = s.engine32 := rfl
@[simp] theorem taken_engine64 (rest : List HostEvent) : (s.taken rest).engine64 = s.engine64 := rfl
@[simp] theorem taken_pending (rest : List HostEvent) : (s.taken rest).pending = rest := rfl
@[simp] theorem taken_reply (rest : List HostEvent) : (s.taken rest).reply = s.reply := rfl
@[simp] theorem taken_draws (rest : List HostEvent) : (s.taken rest).draws = s.draws := rfl

@[simp] theorem asked_status (e : HostEvent) : (s.asked e).status = s.status := rfl
@[simp] theorem asked_len (e : HostEvent) : (s.asked e).len = s.len := rfl
@[simp] theorem asked_cap (e : HostEvent) : (s.asked e).cap = s.cap := rfl
@[simp] theorem asked_digest (e : HostEvent) : (s.asked e).digest = s.digest := rfl
@[simp] theorem asked_mem (e : HostEvent) : (s.asked e).mem = s.mem := rfl
@[simp] theorem asked_faulted (e : HostEvent) : (s.asked e).faulted = s.faulted := rfl
@[simp] theorem asked_engine32 (e : HostEvent) : (s.asked e).engine32 = s.engine32 := rfl
@[simp] theorem asked_engine64 (e : HostEvent) : (s.asked e).engine64 = s.engine64 := rfl
@[simp] theorem asked_pending (e : HostEvent) : (s.asked e).pending = e :: s.pending := rfl
@[simp] theorem asked_reply (e : HostEvent) : (s.asked e).reply = s.reply := rfl
@[simp] theorem asked_draws (e : HostEvent) : (s.asked e).draws = s.draws := rfl

end Sys2Proof.Machine
end

