-- ==== Sys2Proof/Laws/Commands.lean ====
section
/-! SUPPORT. One lemma per outcome of exec_HASH, and once everything a command can do. -/

namespace Sys2Proof.Machine

/-- The five HASH commands are exec_HASH of their variant (R305 to R309). -/
theorem exec_hash (v : Variant) (s : State) : exec v.instr s = execHash v (hashOf v) s := by
  cases v <;> rfl

/-- CAPACITY comes before anything is read (R345). -/
theorem execHash_capacity (v : Variant) (hash : List Byte → List Byte) (s : State) (h : s.cap.toNat < s.len.toNat) :
    execHash v hash s = .next (s.raiseCmdError .capacity) := by
  rw [execHash, if_pos h]

theorem execHash_unwritten (v : Variant) (hash : List Byte → List Byte) (s : State) (h : s.len.toNat ≤ s.cap.toNat)
    (hm : messageOperand s.mem s.len.toNat = none) : execHash v hash s = .next s.modelFault := by
  rw [execHash, if_neg (by omega), hm]

theorem execHash_digest (v : Variant) (hash : List Byte → List Byte) (s : State) (m : List Byte) (h : s.len.toNat ≤ s.cap.toNat)
    (hm : messageOperand s.mem s.len.toNat = some m) : execHash v hash s = .next (s.emitDigest v (hash m)) := by
  rw [execHash, if_neg (by omega), hm]

/-- Everything exec_HASH can do. -/
theorem execHash_cases (v : Variant) (hash : List Byte → List Byte) (s : State) :
    (s.cap.toNat < s.len.toNat ∧ execHash v hash s = .next (s.raiseCmdError .capacity))
      ∨ (s.len.toNat ≤ s.cap.toNat ∧ messageOperand s.mem s.len.toNat = none ∧ execHash v hash s = .next s.modelFault)
      ∨ ∃ m, s.len.toNat ≤ s.cap.toNat ∧ messageOperand s.mem s.len.toNat = some m ∧ execHash v hash s = .next (s.emitDigest v (hash m)) := by
  rcases Nat.lt_or_ge s.cap.toNat s.len.toNat with h | h
  · exact .inl ⟨h, execHash_capacity v hash s h⟩
  · rcases hm : messageOperand s.mem s.len.toNat with _ | m
    · exact .inr (.inl ⟨h, rfl, execHash_unwritten v hash s h hm⟩)
    · exact .inr (.inr ⟨m, h, rfl, execHash_digest v hash s m h hm⟩)

/-- Every command is NOP, CLEAR or the HASH of a variant. -/
theorem instr_cases (i : Instr) : i = .nop ∨ i = .clear ∨ ∃ v : Variant, i = v.instr := by
  cases i with
  | nop => exact .inl rfl
  | clear => exact .inr (.inl rfl)
  | hashSha1 => exact .inr (.inr ⟨.sha1, rfl⟩)
  | hashSha224 => exact .inr (.inr ⟨.sha224, rfl⟩)
  | hashSha256 => exact .inr (.inr ⟨.sha256, rfl⟩)
  | hashSha384 => exact .inr (.inr ⟨.sha384, rfl⟩)
  | hashSha512 => exact .inr (.inr ⟨.sha512, rfl⟩)

/-- Everything a command can do. -/
theorem exec_next_cases {i : Instr} {s t : State} (h : exec i s = .next t) :
    (i = .nop ∧ t = s) ∨ (i = .clear ∧ t = s.clearRegs)
      ∨ ∃ v : Variant, i = v.instr ∧
          ((s.cap.toNat < s.len.toNat ∧ t = s.raiseCmdError .capacity)
            ∨ (s.len.toNat ≤ s.cap.toNat ∧ messageOperand s.mem s.len.toNat = none ∧ t = s.modelFault)
            ∨ ∃ m, s.len.toNat ≤ s.cap.toNat ∧ messageOperand s.mem s.len.toNat = some m ∧ t = s.emitDigest v (hashOf v m)) := by
  rcases instr_cases i with rfl | rfl | ⟨v, rfl⟩
  · cases h; exact .inl ⟨rfl, rfl⟩
  · cases h; exact .inr (.inl ⟨rfl, rfl⟩)
  · rw [exec_hash] at h
    refine .inr (.inr ⟨v, rfl, ?_⟩)
    rcases execHash_cases v (hashOf v) s with ⟨hc, he⟩ | ⟨hc, hm, he⟩ | ⟨m, hc, hm, he⟩ <;> rw [he] at h <;> cases h
    · exact .inl ⟨hc, rfl⟩
    · exact .inr (.inl ⟨hc, hm, rfl⟩)
    · exact .inr (.inr ⟨m, hc, hm, rfl⟩)

/-- A command never faults and is never refused. -/
theorem exec_total (i : Instr) (s : State) : ∃ t, exec i s = .next t := by
  rcases instr_cases i with rfl | rfl | ⟨v, rfl⟩
  · exact ⟨s, rfl⟩
  · exact ⟨s.clearRegs, rfl⟩
  · rw [exec_hash]
    rcases execHash_cases v (hashOf v) s with ⟨_, he⟩ | ⟨_, _, he⟩ | ⟨m, _, _, he⟩ <;> exact ⟨_, he⟩

/-- A held message is the message operand. -/
theorem messageOperand_of_holds {s : State} {m : List Byte} (h : s.HoldsMessage m) : messageOperand s.mem s.len.toNat = some m := by
  rw [messageOperand_eq_some]
  refine ⟨h.1.symm, fun k hk => h.2 k ?_⟩
  rw [← h.1]; exact hk

end Sys2Proof.Machine
end

