-- ==== Sys2Proof/Laws/Decode.lean ====
section
/-! SUPPORT. The decoder by arithmetic on the command word. -/

namespace Sys2Proof

theorem opField_eq (c : Word32) (k : Nat) (hk : k < 256) : opField c = BitVec.ofNat 8 k ↔ c.toNat % 256 = k := by
  rw [opField, BitVec.toNat_eq, BitVec.extractLsb'_toNat, BitVec.toNat_ofNat, Nat.shiftRight_eq_div_pow]
  omega

theorem varField_eq (c : Word32) (k : Nat) (hk : k < 8) : varField c = BitVec.ofNat 3 k ↔ c.toNat / 256 % 8 = k := by
  rw [varField, BitVec.toNat_eq, BitVec.extractLsb'_toNat, BitVec.toNat_ofNat, Nat.shiftRight_eq_div_pow]
  omega

theorem resField_eq_zero (c : Word32) : resField c = 0#21 ↔ c.toNat / 2048 = 0 := by
  have := c.isLt
  rw [resField, BitVec.toNat_eq, BitVec.extractLsb'_toNat, BitVec.toNat_ofNat, Nat.shiftRight_eq_div_pow]
  omega

theorem highField_eq_zero (c : Word32) : c.extractLsb' 8 24 = 0#24 ↔ c.toNat / 256 = 0 := by
  have := c.isLt
  rw [BitVec.toNat_eq, BitVec.extractLsb'_toNat, BitVec.toNat_ofNat, Nat.shiftRight_eq_div_pow]
  omega

/-- The decoder, on the number the command word is (R104). -/
theorem decode_eq (c : Word32) :
    decode c =
      if c.toNat % 256 = 0 then (if c.toNat / 256 = 0 then .instr .nop else .illegal)
      else if c.toNat % 256 = 2 then (if c.toNat / 256 = 0 then .instr .clear else .illegal)
      else if c.toNat % 256 = 1 then
        (if c.toNat / 2048 = 0 then
          (if c.toNat / 256 % 8 = 0 then .instr .hashSha1
          else if c.toNat / 256 % 8 = 1 then .instr .hashSha224
          else if c.toNat / 256 % 8 = 2 then .instr .hashSha256
          else if c.toNat / 256 % 8 = 3 then .instr .hashSha384
          else if c.toNat / 256 % 8 = 4 then .instr .hashSha512
          else .badVariant)
        else .illegal)
      else .illegal := by
  simp only [decode, decodeHash, opNop, opClear, opHash, opField_eq c _ (show 0 < 256 by norm_num), opField_eq c _ (show 1 < 256 by norm_num),
    opField_eq c _ (show 2 < 256 by norm_num), highField_eq_zero, resField_eq_zero, varField_eq c _ (show 0 < 8 by norm_num),
    varField_eq c _ (show 1 < 8 by norm_num), varField_eq c _ (show 2 < 8 by norm_num), varField_eq c _ (show 3 < 8 by norm_num),
    varField_eq c _ (show 4 < 8 by norm_num)]

end Sys2Proof
end

