-- ==== Sys2Proof/Laws/Scheduler.lean ====
section
/-! SUPPORT. Words of a byte string, blocks of words, lengths of what the scheduler and the serializers make. -/

namespace Sys2Proof.Machine

theorem words32_length (p : List Byte) : (words32 p).length = p.length / 4 := by
  induction p using words32.induct with
  | case1 b0 b1 b2 b3 rest ih => simp only [words32, List.length_cons, ih]; omega
  | case2 p h =>
    rcases p with _ | ⟨a, _ | ⟨b, _ | ⟨c, _ | ⟨d, p⟩⟩⟩⟩
    · simp [words32]
    · simp [words32]
    · simp [words32]
    · simp [words32]
    · exact (h a b c d p rfl).elim

theorem words64_length (p : List Byte) : (words64 p).length = p.length / 8 := by
  induction p using words64.induct with
  | case1 b0 b1 b2 b3 b4 b5 b6 b7 rest ih => simp only [words64, List.length_cons, ih]; omega
  | case2 p h =>
    rcases p with _ | ⟨a, _ | ⟨b, _ | ⟨c, _ | ⟨d, _ | ⟨e, _ | ⟨f, _ | ⟨g, _ | ⟨i, p⟩⟩⟩⟩⟩⟩⟩⟩
    · simp [words64]
    · simp [words64]
    · simp [words64]
    · simp [words64]
    · simp [words64]
    · simp [words64]
    · simp [words64]
    · simp [words64]
    · exact (h a b c d e f g i p rfl).elim

/-- Word i of a byte string is the big-endian value of its four bytes (R187). -/
theorem words32_getElem? (p : List Byte) (i : Nat) (h : 4 * i + 4 ≤ p.length) :
    (words32 p)[i]? = some (BitVec.ofNat 32 (beVal ((p.drop (4 * i)).take 4))) := by
  induction p using words32.induct generalizing i with
  | case1 b0 b1 b2 b3 rest ih =>
    cases i with
    | zero => rfl
    | succ i =>
      simp only [List.length_cons] at h
      rw [words32, List.getElem?_cons_succ, ih i (by omega), show 4 * (i + 1) = 4 * i + 1 + 1 + 1 + 1 by ring]
      rfl
  | case2 p hp =>
    rcases p with _ | ⟨a, _ | ⟨b, _ | ⟨c, _ | ⟨d, p⟩⟩⟩⟩
    · simp at h
    · simp at h
    · simp at h
    · simp at h
    · exact (hp a b c d p rfl).elim

/-- Word i of a byte string is the big-endian value of its eight bytes (R187). -/
theorem words64_getElem? (p : List Byte) (i : Nat) (h : 8 * i + 8 ≤ p.length) :
    (words64 p)[i]? = some (BitVec.ofNat 64 (beVal ((p.drop (8 * i)).take 8))) := by
  induction p using words64.induct generalizing i with
  | case1 b0 b1 b2 b3 b4 b5 b6 b7 rest ih =>
    cases i with
    | zero => rfl
    | succ i =>
      simp only [List.length_cons] at h
      rw [words64, List.getElem?_cons_succ, ih i (by omega), show 8 * (i + 1) = 8 * i + 1 + 1 + 1 + 1 + 1 + 1 + 1 + 1 by ring]
      rfl
  | case2 p hp =>
    rcases p with _ | ⟨a, _ | ⟨b, _ | ⟨c, _ | ⟨d, _ | ⟨e, _ | ⟨f, _ | ⟨g, _ | ⟨i, p⟩⟩⟩⟩⟩⟩⟩⟩
    · simp at h
    · simp at h
    · simp at h
    · simp at h
    · simp at h
    · simp at h
    · simp at h
    · simp at h
    · exact (hp a b c d e f g i p rfl).elim

/-- Serialize32 word by word (R221). -/
theorem serialize32_cons (x : Word32) (ws : List Word32) : serialize32 (x :: ws) = be 4 x.toNat ++ serialize32 ws := rfl

/-- Serialize64 word by word (R265). -/
theorem serialize64_cons (x : Word64) (ws : List Word64) : serialize64 (x :: ws) = be 8 x.toNat ++ serialize64 ws := rfl

/-- Words written big-endian and read back are the words. -/
theorem words32_serialize (ws : List Word32) (rest : List Byte) : words32 (serialize32 ws ++ rest) = ws ++ words32 rest := by
  induction ws with
  | nil => rfl
  | cons x ws ih =>
    have hx := ofNat_beVal_be_four x
    rw [serialize32, List.flatMap_cons, ← serialize32, List.append_assoc]
    generalize serialize32 ws ++ rest = q at ih ⊢
    rw [show be 4 x.toNat ++ q = _ from rfl]
    simp only [be, List.cons_append, List.nil_append, words32, ih] at hx ⊢
    rw [hx]

/-- Bytes read as words and written again are the bytes, where they make whole words (R188). -/
theorem serialize32_words32 (p : List Byte) (h : p.length % 4 = 0) : serialize32 (words32 p) = p := by
  induction p using words32.induct with
  | case1 b0 b1 b2 b3 rest ih =>
    simp only [List.length_cons] at h
    have hb := be_beVal [b0, b1, b2, b3]
    have hlt := beVal_lt [b0, b1, b2, b3]
    simp only [List.length_cons, List.length_nil] at hb hlt
    rw [words32, serialize32, List.flatMap_cons, ← serialize32, ih (by omega), BitVec.toNat_ofNat, Nat.mod_eq_of_lt (by norm_num at hlt ⊢; exact hlt), hb]
    rfl
  | case2 p hp =>
    rcases p with _ | ⟨a, _ | ⟨b, _ | ⟨c, _ | ⟨d, p⟩⟩⟩⟩
    · rfl
    · simp at h
    · simp at h
    · simp at h
    · exact (hp a b c d p rfl).elim

/-- Bytes read as words and written again are the bytes, where they make whole words (R188). -/
theorem serialize64_words64 (p : List Byte) (h : p.length % 8 = 0) : serialize64 (words64 p) = p := by
  induction p using words64.induct with
  | case1 b0 b1 b2 b3 b4 b5 b6 b7 rest ih =>
    simp only [List.length_cons] at h
    have hb := be_beVal [b0, b1, b2, b3, b4, b5, b6, b7]
    have hlt := beVal_lt [b0, b1, b2, b3, b4, b5, b6, b7]
    simp only [List.length_cons, List.length_nil] at hb hlt
    rw [words64, serialize64, List.flatMap_cons, ← serialize64, ih (by omega), BitVec.toNat_ofNat, Nat.mod_eq_of_lt (by norm_num at hlt ⊢; exact hlt), hb]
    rfl
  | case2 p hp =>
    rcases p with _ | ⟨a, _ | ⟨b, _ | ⟨c, _ | ⟨d, _ | ⟨e, _ | ⟨f, _ | ⟨g, _ | ⟨i, p⟩⟩⟩⟩⟩⟩⟩⟩
    · rfl
    · simp at h
    · simp at h
    · simp at h
    · simp at h
    · simp at h
    · simp at h
    · simp at h
    · exact (hp a b c d e f g i p rfl).elim

/-- The blocks' words, one after the other, are the words, where they make whole blocks. -/
theorem toBlocks_flatMap {w : Nat} (ws : List (BitVec w)) (h : ws.length % 16 = 0) : (toBlocks ws).flatMap (fun b => b.toList) = ws := by
  induction ws using toBlocks.induct with
  | case1 w0 w1 w2 w3 w4 w5 w6 w7 w8 w9 w10 w11 w12 w13 w14 w15 rest ih =>
    simp only [List.length_cons] at h
    rw [toBlocks, List.flatMap_cons, ih (by omega)]
    rfl
  | case2 ws hp =>
    match ws, h with
    | [], _ => rfl
    | w0 :: w1 :: w2 :: w3 :: w4 :: w5 :: w6 :: w7 :: w8 :: w9 :: w10 :: w11 :: w12 :: w13 :: w14 :: w15 :: rest, _ =>
      exact (hp w0 w1 w2 w3 w4 w5 w6 w7 w8 w9 w10 w11 w12 w13 w14 w15 rest rfl).elim

theorem toBlocks_length {w : Nat} (ws : List (BitVec w)) (h : ws.length % 16 = 0) : (toBlocks ws).length = ws.length / 16 := by
  induction ws using toBlocks.induct with
  | case1 w0 w1 w2 w3 w4 w5 w6 w7 w8 w9 w10 w11 w12 w13 w14 w15 rest ih =>
    simp only [List.length_cons] at h ⊢
    rw [toBlocks, List.length_cons, ih (by omega)]
    omega
  | case2 ws hp =>
    match ws, h with
    | [], _ => simp [toBlocks]
    | w0 :: w1 :: w2 :: w3 :: w4 :: w5 :: w6 :: w7 :: w8 :: w9 :: w10 :: w11 :: w12 :: w13 :: w14 :: w15 :: rest, _ =>
      exact (hp w0 w1 w2 w3 w4 w5 w6 w7 w8 w9 w10 w11 w12 w13 w14 w15 rest rfl).elim

/-- Word j of block i is word 16·i + j. -/
theorem toBlocks_getElem? {w : Nat} (ws : List (BitVec w)) (i : Nat) (j : Fin 16) (h : 16 * i + 16 ≤ ws.length) :
    ((toBlocks ws)[i]?).map (fun b => b[j]) = ws[16 * i + j.val]? := by
  induction ws using toBlocks.induct generalizing i with
  | case1 w0 w1 w2 w3 w4 w5 w6 w7 w8 w9 w10 w11 w12 w13 w14 w15 rest ih =>
    cases i with
    | zero => fin_cases j <;> rfl
    | succ i =>
      simp only [List.length_cons] at h
      rw [toBlocks, List.getElem?_cons_succ, ih i (by omega),
        show 16 * (i + 1) + j.val = 16 * i + j.val + 1 + 1 + 1 + 1 + 1 + 1 + 1 + 1 + 1 + 1 + 1 + 1 + 1 + 1 + 1 + 1 by ring]
      simp only [List.getElem?_cons_succ]
  | case2 ws hp =>
    match ws, h with
    | w0 :: w1 :: w2 :: w3 :: w4 :: w5 :: w6 :: w7 :: w8 :: w9 :: w10 :: w11 :: w12 :: w13 :: w14 :: w15 :: rest, _ =>
      exact (hp w0 w1 w2 w3 w4 w5 w6 w7 w8 w9 w10 w11 w12 w13 w14 w15 rest rfl).elim

/-- The padded length is a whole number of blocks (R185). -/
theorem pad32_length (m : List Byte) : (pad32 m).length = 64 * ((m.length + 8) / 64 + 1) := by
  simp only [pad32, zeroBytes32, List.length_append, List.length_cons, List.length_nil, List.length_replicate, be_length]
  omega

/-- The padded length is a whole number of blocks (R185). -/
theorem pad64_length (m : List Byte) : (pad64 m).length = 128 * ((m.length + 16) / 128 + 1) := by
  simp only [pad64, zeroBytes64, List.length_append, List.length_cons, List.length_nil, List.length_replicate, be_length]
  omega

@[simp] theorem serialize32_length (ws : List Word32) : (serialize32 ws).length = 4 * ws.length := by
  simp [serialize32, List.length_flatMap, Nat.mul_comm]

@[simp] theorem serialize64_length (ws : List Word64) : (serialize64 ws).length = 8 * ws.length := by
  simp [serialize64, List.length_flatMap, Nat.mul_comm]

theorem hashSha1_length (m : List Byte) : (hashSha1 m).length = 20 := by simp [hashSha1, Vec5.toList]

theorem hashSha224_length (m : List Byte) : (hashSha224 m).length = 28 := by simp [hashSha224, Vec8.toList]

theorem hashSha256_length (m : List Byte) : (hashSha256 m).length = 32 := by simp [hashSha256, Vec8.toList]

theorem hashSha384_length (m : List Byte) : (hashSha384 m).length = 48 := by simp [hashSha384, Vec8.toList]

theorem hashSha512_length (m : List Byte) : (hashSha512 m).length = 64 := by simp [hashSha512, Vec8.toList]

/-- The bytes of a 64-bit word are those of its two halves, high half first (R76). -/
theorem be_eight_halves (x : Word64) : be 8 x.toNat = be 4 (x.extractLsb' 32 32).toNat ++ be 4 (x.extractLsb' 0 32).toNat := by
  simp only [be, List.cons_append, List.nil_append, List.cons.injEq, and_true]
  refine ⟨?_, ?_, ?_, ?_, ?_, ?_, ?_, ?_⟩ <;> apply BitVec.eq_of_toNat_eq <;>
    simp only [BitVec.toNat_ofNat, BitVec.extractLsb'_toNat, Nat.shiftRight_eq_div_pow] <;> omega

/-- Serialize64 is Serialize32 of the halves, high half first (R76). -/
theorem serialize64_eq (ws : List Word64) : serialize64 ws = serialize32 (ws.flatMap fun x => [x.extractLsb' 32 32, x.extractLsb' 0 32]) := by
  induction ws with
  | nil => rfl
  | cons x ws ih =>
    rw [serialize64, List.flatMap_cons, ← serialize64, ih, be_eight_halves]
    simp [serialize32]

end Sys2Proof.Machine
end

