-- ==== Sys2Proof/Laws/Digest.lean ====
section
/-! SUPPORT. How digest bytes fill the DIGEST registers. -/

namespace Sys2Proof.Machine

/-- The sixteen DIGEST registers are the words of the 64 bytes (R76, R304). -/
theorem packDigest_toList (e : List Byte) (h : e.length = 64) : (packDigest e).toList = words32 e := by
  have hl := words32_length e
  apply List.ext_getElem?
  intro i
  by_cases hi : i < 16
  · rw [words32_getElem? e i (by omega), List.getElem?_eq_getElem (by simpa using hi)]
    simp [packDigest]
  · rw [List.getElem?_eq_none (by simpa using hi), List.getElem?_eq_none (by omega)]

theorem words32_zeros (k : Nat) : words32 (List.replicate (4 * k) 0x00#8) = List.replicate k 0x00000000#32 := by
  induction k with
  | zero => rfl
  | succ k ih =>
    rw [show 4 * (k + 1) = 4 * k + 1 + 1 + 1 + 1 by ring]
    simp only [List.replicate_succ, words32, ih]
    rfl

/-- DIGEST after a digest of k words: the words, then zeros (R304, R310). -/
theorem packDigest_serialize (ws : List Word32) (k : Nat) (h : ws.length + k = 16) :
    (packDigest (serialize32 ws ++ List.replicate (4 * k) 0x00#8)).toList = ws ++ List.replicate k 0x00000000#32 := by
  rw [packDigest_toList _ (by simp; omega), words32_serialize, words32_zeros]

end Sys2Proof.Machine
end

