-- ==== Sys2Proof/Laws/PerInstr.lean ====
section
/-! SUPPORT. What holds of each command as syntax: it is well formed and its command word is. -/

namespace Sys2Proof.Laws.EncodedWord

/-- The command is well formed and its word has a known OP, zero reserved bits and a known VAR (R100 to R103). -/
def Statement (i : Instr) : Prop :=
  i.wf = true ∧ commandWordWf (encode i) = true

theorem nop : Statement .nop := by unfold Statement; decide

theorem clear : Statement .clear := by unfold Statement; decide

theorem hashSha1 : Statement .hashSha1 := by unfold Statement; decide

theorem hashSha224 : Statement .hashSha224 := by unfold Statement; decide

theorem hashSha256 : Statement .hashSha256 := by unfold Statement; decide

theorem hashSha384 : Statement .hashSha384 := by unfold Statement; decide

theorem hashSha512 : Statement .hashSha512 := by unfold Statement; decide

end Sys2Proof.Laws.EncodedWord
end

