-- ==== Sys2Proof/Laws/Schedule.lean ====
section
/-! SUPPORT. A message schedule entry by entry: its length, the block's words, the recurrence; and a fold over two lists in step. -/

namespace Sys2Proof.Machine

theorem extend_length {w : Nat} (next : List (BitVec w) → BitVec w) (n : Nat) (ws : List (BitVec w)) : (extend next n ws).length = n + ws.length := by
  induction n generalizing ws with
  | zero => simp [extend]
  | succ n ih => rw [extend, ih, List.length_cons]; omega

/-- The entries already computed stay. -/
theorem extend_suffix {w : Nat} (next : List (BitVec w) → BitVec w) (n : Nat) (ws : List (BitVec w)) : ∃ p, extend next n ws = p ++ ws := by
  induction n generalizing ws with
  | zero => exact ⟨[], rfl⟩
  | succ n ih =>
    obtain ⟨p, hp⟩ := ih (next ws :: ws)
    exact ⟨p ++ [next ws], by rw [extend, hp]; simp⟩

/-- Each entry computed is the recurrence's value on the entries before it. -/
theorem extend_split {w : Nat} (next : List (BitVec w) → BitVec w) (n k : Nat) (ws : List (BitVec w)) (h : k < n) :
    ∃ p q, extend next n ws = p ++ next q :: q ∧ q.length = ws.length + k := by
  induction n generalizing ws k with
  | zero => omega
  | succ n ih =>
    cases k with
    | zero =>
      obtain ⟨p, hp⟩ := extend_suffix next n (next ws :: ws)
      exact ⟨p, ws, by rw [extend, hp], rfl⟩
    | succ k =>
      obtain ⟨p, q, h1, h2⟩ := ih k (next ws :: ws) (by omega)
      exact ⟨p, q, by rw [extend, h1], by rw [h2, List.length_cons]; omega⟩

theorem scheduleOf_length {w : Nat} (next : List (BitVec w) → BitVec w) (n : Nat) (b : Block w) : (scheduleOf next n b).length = 16 + n := by
  simp [scheduleOf, extend_length, Nat.add_comm]

/-- The first sixteen entries are the block's words. -/
theorem scheduleOf_block {w : Nat} (next : List (BitVec w) → BitVec w) (n : Nat) (b : Block w) (t : Fin 16) : (scheduleOf next n b).getD t.val 0 = b[t] := by
  obtain ⟨p, hp⟩ := extend_suffix next n b.toList.reverse
  rw [scheduleOf, hp, List.reverse_append, List.reverse_reverse, List.getD_eq_getElem?_getD, List.getElem?_append_left (by simp)]
  simp

/-- Entry t is the recurrence's value on a list in which `back q d` is entry t − d. -/
theorem scheduleOf_next {w : Nat} (next : List (BitVec w) → BitVec w) (n : Nat) (b : Block w) (t : Nat) (h1 : 16 ≤ t) (h2 : t < 16 + n) :
    ∃ q, (scheduleOf next n b).getD t 0 = next q ∧ ∀ d, 1 ≤ d → d ≤ t → (scheduleOf next n b).getD (t - d) 0 = back q d := by
  obtain ⟨p, q, e, hl⟩ := extend_split next n (t - 16) b.toList.reverse (by omega)
  have hq : q.length = t := by rw [hl]; simp; omega
  refine ⟨q, ?_, fun d hd hd' => ?_⟩
  · rw [scheduleOf, e, List.reverse_append, List.reverse_cons, List.append_assoc, List.getD_eq_getElem?_getD, List.getElem?_append_right (by simp [hq])]
    simp [hq]
  · rw [scheduleOf, e, List.reverse_append, List.reverse_cons, List.append_assoc, List.getD_eq_getElem?_getD,
      List.getElem?_append_left (by simp [hq]; omega), List.getElem?_reverse (by omega), back, List.getD_eq_getElem?_getD]
    congr 2
    omega

/-- A fold over two lists of one length in step is a fold over the indices. -/
theorem foldl_zip_range {α β γ : Type} (f : γ → α → β → γ) (d : α) (e : β) (ks : List α) (ws : List β) (h : ws.length = ks.length) (v : γ) :
    (ks.zip ws).foldl (fun v kw => f v kw.1 kw.2) v = (List.range ks.length).foldl (fun v t => f v (ks.getD t d) (ws.getD t e)) v := by
  have hz : ks.zip ws = (List.range ks.length).map fun t => (ks.getD t d, ws.getD t e) := by
    apply List.ext_getElem
    · simp [h]
    · intro i h1 h2
      simp at h1 h2
      simp [List.getD_eq_getElem?_getD, h2, h1.2]
  rw [hz, List.foldl_map]

end Sys2Proof.Machine
end

