-- ==== Sys2Proof/Laws/Step.lean ====
section
/-! SUPPORT. The address map, address by address, and once everything a step can do. -/

namespace Sys2Proof.Machine

/-- The step on a state whose first event is `e` serves `e` (R11). -/
@[simp] theorem step_asked (s : State) (e : HostEvent) : step (s.asked e) = serve e s := rfl

theorem step_pending {s : State} {e : HostEvent} {rest : List HostEvent} (h : s.pending = e :: rest) : step s = serve e (s.taken rest) := by
  rw [step, h]

theorem step_idle {s : State} (h : s.pending = []) : step s = .next s := by
  rw [step, h]

/-- Where the address map has nothing (R72). -/
theorem busTarget_eq_none (cap : Nat) (a : Addr) :
    busTarget cap a = none ↔
      a.toNat % 4 ≠ 0 ∨ (0x10 ≤ a.toNat ∧ a.toNat < 0x40) ∨ (0x80 ≤ a.toNat ∧ a.toNat < 0x1000) ∨ (0x80 ≤ a.toNat ∧ 0x1000 + cap ≤ a.toNat) := by
  simp only [busTarget]
  split_ifs <;> first
    | exact ⟨fun _ => by omega, fun _ => rfl⟩
    | exact ⟨fun h => (nomatch h), fun h => by omega⟩

/-- An address that names a message word lies in the window at its offset (R30). -/
theorem busTarget_eq_msg {cap : Nat} {a : Addr} {j : Nat} (h : busTarget cap a = some (.msg j)) : a.toNat = 0x1000 + 4 * j ∧ 4 * j < cap := by
  simp only [busTarget] at h
  split_ifs at h <;> cases h
  omega

/-- The address of message word j (R30). -/
theorem busTarget_msg {cap : Nat} (hcap : cap ≤ 61440) (j : Nat) (hj : 4 * j < cap) :
    busTarget cap (BitVec.ofNat 16 (0x1000 + 4 * j)) = some (.msg j) := by
  have ha : (BitVec.ofNat 16 (0x1000 + 4 * j)).toNat = 0x1000 + 4 * j := by
    rw [BitVec.toNat_ofNat]; omega
  simp only [busTarget, ha]
  rw [if_neg (by omega), if_neg (by omega), if_neg (by omega), if_neg (by omega), if_neg (by omega), if_neg (by omega), if_pos (by omega)]
  congr 2
  omega

/-- The address of DIGEST i (R30). -/
theorem busTarget_digest (cap : Nat) (i : Fin 16) : busTarget cap (BitVec.ofNat 16 (0x0040 + 4 * i.val)) = some (.digest i) := by
  have ha : (BitVec.ofNat 16 (0x0040 + 4 * i.val)).toNat = 0x0040 + 4 * i.val := by
    rw [BitVec.toNat_ofNat]; omega
  simp only [busTarget, ha]
  rw [if_neg (by omega), if_neg (by omega), if_neg (by omega), if_neg (by omega), if_neg (by omega), if_pos (by omega)]
  congr 2
  apply Fin.ext
  rw [Fin.val_ofNat]
  omega

/-- CMD alone has the address 0 (R30). -/
theorem busTarget_eq_cmd {cap : Nat} {a : Addr} (h : busTarget cap a = some .cmd) : a = 0x0000#16 := by
  simp only [busTarget] at h
  split_ifs at h <;> cases h
  apply BitVec.eq_of_toNat_eq
  simpa using ‹a.toNat = 0›

/-- LEN alone has the address 8 (R30). -/
theorem busTarget_eq_len {cap : Nat} {a : Addr} (h : busTarget cap a = some .len) : a = 0x0008#16 := by
  simp only [busTarget] at h
  split_ifs at h <;> cases h
  apply BitVec.eq_of_toNat_eq
  simpa using ‹a.toNat = 8›

/-- What a command word can do to the state. -/
inductive CommandEffect : Word32 → State → State → Prop
  | illegal (c : Word32) (s : State) (h : decode c = .illegal) : CommandEffect c s (s.raiseCmdError .illegalCmd)
  | badVariant (c : Word32) (s : State) (h : decode c = .badVariant) : CommandEffect c s (s.raiseCmdError .badVariant)
  | executed (c : Word32) (s t : State) (i : Instr) (h : decode c = .instr i) (he : exec i s = .next t) : CommandEffect c s t

theorem performCommand_cases {c : Word32} {s t : State} (h : performCommand c s = .next t) : CommandEffect c s t := by
  simp only [performCommand] at h
  split at h
  · exact .executed c s t _ ‹_› h
  · cases h; exact .illegal c s ‹_›
  · cases h; exact .badVariant c s ‹_›

theorem performCommand_total (c : Word32) (s : State) : ∃ t, performCommand c s = .next t := by
  simp only [performCommand]
  split
  · exact exec_total _ _
  · exact ⟨_, rfl⟩
  · exact ⟨_, rfl⟩

/-- What one event of the host can do to the state, the event taken up. -/
inductive EventEffect : HostEvent → State → State → Prop
  /-- the reset event (R370) -/
  | reset (s : State) : EventEffect .reset s s.resetEvent
  /-- a read, an ignored write or a bus error: the answer alone (R72, R75, R78) -/
  | answered (tr : Transaction) (s : State) (r : Reply) : EventEffect (.bus tr) s (s.setReply r)
  /-- the read of a message word never written (R40) -/
  | drawn (a : Addr) (s : State) (r : Reply) : EventEffect (.bus (.read a)) s (s.drawn.setReply r)
  /-- the write of LEN (R75) -/
  | lenWritten (s : State) (v : Word32) : EventEffect (.bus (.write 0x0008#16 v)) s ((s.setLen v).setReply okWrite)
  /-- the write of a message word (R73) -/
  | msgWritten (a : Addr) (s : State) (j : Nat) (v : Word32) (ha : a.toNat = 0x1000 + 4 * j) (hj : 4 * j < s.cap.toNat) :
      EventEffect (.bus (.write a v)) s ((s.writeMsgWord j v).setReply okWrite)
  /-- a command (R300) -/
  | command (c : Word32) (s t : State) (h : CommandEffect c s t) : EventEffect (.bus (.write 0x0000#16 c)) s (t.setReply okWrite)

theorem readTarget_cases (a : Addr) (tgt : BusTarget) (s : State) : EventEffect (.bus (.read a)) s (readTarget tgt s) := by
  cases tgt with
  | cmd => exact .answered _ _ _
  | status => exact .answered _ _ _
  | len => exact .answered _ _ _
  | cap => exact .answered _ _ _
  | digest i => exact .answered _ _ _
  | msg j =>
    simp only [readTarget]
    split
    · exact .answered _ _ _
    · exact .drawn _ _ _

/-- Once everything the service of an event can do. -/
theorem serve_cases {e : HostEvent} {s t : State} (h : serve e s = .next t) : EventEffect e s t := by
  cases e with
  | reset => cases h; exact .reset s
  | bus tr =>
    cases tr with
    | read a =>
      simp only [serve, transact] at h
      split at h
      · cases h; exact .answered _ _ _
      · cases h; exact readTarget_cases _ _ _
    | write a v =>
      simp only [serve, transact] at h
      split at h
      · cases h; exact .answered _ _ _
      · rename_i tgt htgt
        cases tgt with
        | cmd =>
          obtain ⟨u, hu⟩ := performCommand_total v s
          simp only [writeTarget, hu, answer] at h
          cases h
          rw [busTarget_eq_cmd htgt]
          exact .command v s u (performCommand_cases hu)
        | status => cases h; exact .answered _ _ _
        | len =>
          cases h
          rw [busTarget_eq_len htgt]
          exact .lenWritten s v
        | cap => cases h; exact .answered _ _ _
        | digest i => cases h; exact .answered _ _ _
        | msg j =>
          cases h
          obtain ⟨ha, hj⟩ := busTarget_eq_msg htgt
          exact .msgWritten a s j v ha hj

theorem answer_total {r : Reply} {o : Host.Outcome State Fault Refusal} (h : ∃ t, o = .next t) : ∃ t, answer r o = .next t := by
  obtain ⟨t, rfl⟩ := h
  exact ⟨_, rfl⟩

/-- The service of an event always gives a next state. -/
theorem serve_total (e : HostEvent) (s : State) : ∃ t, serve e s = .next t := by
  cases e with
  | reset => exact ⟨_, rfl⟩
  | bus tr =>
    cases tr with
    | read a =>
      simp only [serve, transact]
      split <;> exact ⟨_, rfl⟩
    | write a v =>
      simp only [serve, transact]
      split
      · exact ⟨_, rfl⟩
      · rename_i tgt _
        apply answer_total
        cases tgt with
        | cmd => exact performCommand_total v s
        | status => exact ⟨_, rfl⟩
        | len => exact ⟨_, rfl⟩
        | cap => exact ⟨_, rfl⟩
        | digest i => exact ⟨_, rfl⟩
        | msg j => exact ⟨_, rfl⟩

/-- Once everything a step can do. -/
theorem step_cases {s t : State} (h : step s = .next t) :
    (s.pending = [] ∧ t = s) ∨ ∃ e rest, s.pending = e :: rest ∧ EventEffect e (s.taken rest) t := by
  rcases hp : s.pending with _ | ⟨e, rest⟩
  · rw [step_idle hp] at h
    cases h
    exact .inl ⟨rfl, rfl⟩
  · rw [step_pending hp] at h
    exact .inr ⟨e, rest, rfl, serve_cases h⟩

/-- A read of an unmapped or misaligned address (R72). -/
theorem step_read_none {s : State} {a : Addr} (h : busTarget s.cap.toNat a = none) : step (s.asked (.bus (.read a))) = .next (s.setReply errRead) := by
  simp [serve, transact, h]

/-- A write of an unmapped or misaligned address (R72). -/
theorem step_write_none {s : State} {a : Addr} {v : Word32} (h : busTarget s.cap.toNat a = none) :
    step (s.asked (.bus (.write a v))) = .next (s.setReply errWrite) := by
  simp [serve, transact, h]

/-- A read that is served (R71). -/
theorem step_read_some {s : State} {a : Addr} {tgt : BusTarget} (h : busTarget s.cap.toNat a = some tgt) :
    step (s.asked (.bus (.read a))) = .next (readTarget tgt s) := by
  simp [serve, transact, h]

/-- A write that is served (R71). -/
theorem step_write_some {s : State} {a : Addr} {v : Word32} {tgt : BusTarget} (h : busTarget s.cap.toNat a = some tgt) :
    step (s.asked (.bus (.write a v))) = answer okWrite (writeTarget tgt v s) := by
  simp [serve, transact, h]

theorem writeTarget_total (tgt : BusTarget) (v : Word32) (s : State) : ∃ t, writeTarget tgt v s = .next t := by
  cases tgt with
  | cmd => exact performCommand_total v s
  | status => exact ⟨_, rfl⟩
  | len => exact ⟨_, rfl⟩
  | cap => exact ⟨_, rfl⟩
  | digest i => exact ⟨_, rfl⟩
  | msg j => exact ⟨_, rfl⟩

/-- The write of message word j through its address (R73). -/
theorem step_msgWrite {s : State} {j : Nat} (v : Word32) (hc : s.cap.toNat ≤ 61440) (hj : 4 * j < s.cap.toNat) :
    step (s.asked (.bus (.write (BitVec.ofNat 16 (0x1000 + 4 * j)) v))) = .next ((s.writeMsgWord j v).setReply okWrite) := by
  rw [step_write_some (busTarget_msg hc j hj)]
  rfl

theorem performCommand_illegal {c : Word32} (s : State) (h : decode c = .illegal) : performCommand c s = .next (s.raiseCmdError .illegalCmd) := by
  rw [performCommand, h]

theorem performCommand_badVariant {c : Word32} (s : State) (h : decode c = .badVariant) : performCommand c s = .next (s.raiseCmdError .badVariant) := by
  rw [performCommand, h]

theorem performCommand_instr {c : Word32} (s : State) {i : Instr} (h : decode c = .instr i) : performCommand c s = exec i s := by
  rw [performCommand, h]

/-- The service of an event leaves what the host does after it. -/
theorem eventEffect_pending {e : HostEvent} {s t : State} (h : EventEffect e s t) : t.pending = s.pending := by
  cases h with
  | reset => rfl
  | answered => rfl
  | drawn => rfl
  | lenWritten => rfl
  | msgWritten => rfl
  | command c _ u hu =>
    cases hu with
    | illegal => rfl
    | badVariant => rfl
    | executed _ i hd hx =>
      rcases exec_next_cases hx with ⟨_, rfl⟩ | ⟨_, rfl⟩ | ⟨v, _, ⟨_, rfl⟩ | ⟨_, _, rfl⟩ | ⟨m, _, _, rfl⟩⟩ <;> rfl

end Sys2Proof.Machine
end

