-- ==== Sys2Proof/Laws/Script.lean ====
section
/-! SUPPORT. The words LOADMSG writes, the buffer after them, and the steps that write them (spec 30_encoding.md R108; 70_reset_and_hazards.md R372). -/

namespace Sys2Proof.Machine

/-- The words of a byte string hold its bytes, in order. -/
theorem loadWords_bytes (m : List Byte) : ∃ p, serialize32 (loadWords m) = m ++ p := by
  have hb : ∀ a b c d : Byte, be 4 (BitVec.ofNat 32 (beVal [a,b,c,d])).toNat = [a,b,c,d] := by
    intro a b c d
    have h1 := beVal_lt [a,b,c,d]
    have h2 := be_beVal [a,b,c,d]
    rw [BitVec.toNat_ofNat, Nat.mod_eq_of_lt (by simpa using h1)]; exact h2
  induction m using loadWords.induct with
  | case1 => exact ⟨[], rfl⟩
  | case2 a => exact ⟨[0,0,0], by simp only [loadWords, serialize32, List.flatMap_cons, hb]; rfl⟩
  | case3 a b => exact ⟨[0,0], by simp only [loadWords, serialize32, List.flatMap_cons, hb]; rfl⟩
  | case4 a b c => exact ⟨[0], by simp only [loadWords, serialize32, List.flatMap_cons, hb]; rfl⟩
  | case5 a b c d rest ih =>
    obtain ⟨p, hp⟩ := ih
    exact ⟨p, by rw [loadWords, serialize32, List.flatMap_cons, ← serialize32, hp, hb]; rfl⟩

/-- There are ceil(n/4) words. -/
theorem loadWords_length (m : List Byte) : (loadWords m).length = (m.length + 3) / 4 := by
  induction m using loadWords.induct with
  | case5 a b c d rest ih => simp only [loadWords, List.length_cons] at ih ⊢; omega
  | _ => simp [loadWords]

/-- A byte of the buffer after words are written from word j on. -/
theorem readByte_foldl_writeMsgWord (vs : List Word32) (j : Nat) (s : State) (k : Nat) :
   readByte ((vs.zipIdx j).foldl (fun st vj => st.writeMsgWord vj.2 vj.1) s).mem k = if 4*j ≤ k ∧ k < 4*j + 4*vs.length then (serialize32 vs)[k - 4*j]? else readByte s.mem k := by
  induction vs generalizing j s with
  | nil => rw [if_neg (by simp)]; rfl
  | cons v vs ih =>
    rw [List.zipIdx_cons, List.foldl_cons, ih (j+1), show serialize32 (v :: vs) = be 4 v.toNat ++ serialize32 vs from rfl]
    simp only [List.length_cons]
    by_cases h : 4*(j+1) ≤ k ∧ k < 4*(j+1) + 4*vs.length
    · rw [if_pos h, if_pos (by omega), List.getElem?_append_right (by simp; omega)]
      congr 1
    · rw [if_neg h, writeMsgWord_mem, readByte_memWrite]
      by_cases h2 : 4*j ≤ k ∧ k < 4*j+4
      · rw [if_pos h2, if_pos (by omega), List.getElem?_append_left (by simp; omega)]
      · rw [if_neg h2, if_neg (by omega)]

/-- Writing words leaves CAP. -/
theorem foldl_writeMsgWord_cap (l : List (Word32 × Nat)) (a : State) : (l.foldl (fun st vj => st.writeMsgWord vj.2 vj.1) a).cap = a.cap := by
  induction l generalizing a with
  | nil => rfl
  | cons x l ih => exact ih (a.writeMsgWord x.2 x.1)

/-- Writing words leaves `faulted`. -/
theorem foldl_writeMsgWord_faulted (l : List (Word32 × Nat)) (a : State) : (l.foldl (fun st vj => st.writeMsgWord vj.2 vj.1) a).faulted = a.faulted := by
  induction l generalizing a with
  | nil => rfl
  | cons x l ih => exact ih (a.writeMsgWord x.2 x.1)

/-- A run takes its first step. -/
theorem run_step {n : Nat} {s t : State} (h : step s = .next t) : Sys2Proof.core.run (n+1) s = Sys2Proof.core.run n t := by
  have h' : Sys2Proof.core.step s = .next t := h
  simp only [Host.Core.run, h']

/-- The run of the writes of message words from word j on. -/
theorem run_msgWrites (vs : List Word32) : ∀ (j n : Nat) (s : State) (rest : List HostEvent), s.cap.toNat ≤ 61440 → 4 * (j + vs.length) ≤ s.cap.toNat →
    s.pending = (msgWrites j vs).map .bus ++ rest →
    ∃ r, Sys2Proof.core.run (vs.length + n) s =
      Sys2Proof.core.run n { ((vs.zipIdx j).foldl (fun st vj => st.writeMsgWord vj.2 vj.1) s) with pending := rest, reply := r } := by
  induction vs with
  | nil =>
    intro j n s rest hc hj hp
    refine ⟨s.reply, ?_⟩
    simp only [msgWrites, List.map_nil, List.nil_append] at hp
    subst hp
    simp only [List.length_nil, Nat.zero_add, List.zipIdx_nil, List.foldl_nil]
  | cons v vs ih =>
    intro j n s rest hc hj hp
    simp only [List.length_cons] at hj
    have hstep : step s = .next (((s.taken ((msgWrites (j+1) vs).map .bus ++ rest)).writeMsgWord j v).setReply okWrite) := by
      rw [step_pending (e := .bus (.write (msgAddr j) v)) (rest := (msgWrites (j+1) vs).map .bus ++ rest) (by rw [hp]; rfl)]
      simp only [serve, transact, msgAddr]
      rw [busTarget_msg (by simpa using hc) j (by simp; omega)]
      rfl
    rw [List.length_cons, show vs.length + 1 + n = (vs.length + n) + 1 by omega, run_step hstep]
    obtain ⟨r, hr⟩ := ih (j+1) n (((s.taken ((msgWrites (j+1) vs).map .bus ++ rest)).writeMsgWord j v).setReply okWrite) rest hc (by show 4 * (j+1+vs.length) ≤ s.cap.toNat; omega) rfl
    refine ⟨r, hr.trans ?_⟩
    rw [List.zipIdx_cons, List.foldl_cons]
    have key : ∀ (l : List (Word32 × Nat)) (a : State) (p rp), { (l.foldl (fun st vj => st.writeMsgWord vj.2 vj.1) ({a with pending := p, reply := rp})) with pending := rest, reply := r } = { (l.foldl (fun st vj => st.writeMsgWord vj.2 vj.1) a) with pending := rest, reply := r } := by
      intro l
      induction l with
      | nil => intro a p rp; rfl
      | cons x l ih => intro a p rp; exact ih (a.writeMsgWord x.2 x.1) p rp
    exact congrArg _ (key _ (s.writeMsgWord j v) _ _)

end Sys2Proof.Machine
end

