-- ==== Sys2Proof/Laws/Status.lean ====
section
/-! SUPPORT. The values commands give STATUS are legal, and what its fields say of them. -/

namespace Sys2Proof.Machine

@[simp] theorem legalStatus_zero : legalStatus 0#32 = true := by decide

@[simp] theorem legalStatus_hashStatus (v : Variant) : legalStatus (hashStatus v) = true := by
  cases v <;> decide

@[simp] theorem legalStatus_errStatus (e : CmdError) : legalStatus (errStatus e) = true := by
  cases e <;> decide

/-- The free STATUS of a model fault is a legal one (R32, R34, R35). -/
@[simp] theorem legalStatus_free (d : Nat) : legalStatus (freeLegalStatus d) = true := by
  simp only [freeLegalStatus]
  split
  · assumption
  · exact legalStatus_zero

@[simp] theorem digestBytesOf_hashStatus (v : Variant) : digestBytesOf (hashStatus v) = v.digestBytes := by
  cases v <;> decide

end Sys2Proof.Machine
end

