-- ==== Sys2Proof/Machine/ScriptText.lean ====
section
/-! DEFINITION. The text of a host script, line by line: words, numbers, register names, mnemonics, comments (spec 30_encoding.md R107, R108). A line is a list of characters. -/

namespace Sys2Proof.Machine

/-- The pieces of a script line. -/
inductive Token where
  | word (cs : List Char)
  | text (cs : List Char)
  | comma
  deriving DecidableEq, Repr

/-- Where the reader of a line stands: between pieces, inside a word, inside a quoted text; the characters read so far, last first. -/
inductive LexMode where
  | gap
  | word (acc : List Char)
  | text (acc : List Char)
  deriving DecidableEq, Repr

/-- The double quote. -/
def quoteChar : Char := Char.ofNat 34

/-- Blanks separate words. -/
def isBlank (c : Char) : Bool :=
  c = ' ' || c = '\t'

/-- A line cut into its pieces; `;` outside a quoted text starts a comment; none where a quoted text is not closed or a quote stands inside a word (R107). -/
def lex : LexMode → List Char → Option (List Token)
  | .gap, [] => some []
  | .word acc, [] => some [.word acc.reverse]
  | .text _, [] => none
  | .gap, c :: cs =>
      if c = ';' then some []
      else if isBlank c then lex .gap cs
      else if c = ',' then (lex .gap cs).map (.comma :: ·)
      else if c = quoteChar then lex (.text []) cs
      else lex (.word [c]) cs
  | .word acc, c :: cs =>
      if c = ';' then some [.word acc.reverse]
      else if isBlank c then (lex .gap cs).map (.word acc.reverse :: ·)
      else if c = ',' then (lex .gap cs).map fun ts => .word acc.reverse :: .comma :: ts
      else if c = quoteChar then none
      else lex (.word (c :: acc)) cs
  | .text acc, c :: cs =>
      if c = quoteChar then (lex .gap cs).map (.text acc.reverse :: ·)
      else lex (.text (c :: acc)) cs

/-- The value of a digit in a base, none where the character is no digit of it. -/
def digitValue (base : Nat) (c : Char) : Option Nat :=
  let n := c.toNat
  let v :=
    if 48 ≤ n ∧ n ≤ 57 then n - 48
    else if 65 ≤ n ∧ n ≤ 70 then n - 55
    else if 97 ≤ n ∧ n ≤ 102 then n - 87
    else base
  if v < base then some v else none

/-- The number a string of digits writes in a base, after the digits already read. -/
def digitsValue (base : Nat) : Nat → List Char → Option Nat
  | acc, [] => some acc
  | acc, c :: cs =>
      match digitValue base c with
      | some d => digitsValue base (acc * base + d) cs
      | none => none

/-- A number: hexadecimal with a 0x prefix, or decimal (R107). -/
def parseNumber : List Char → Option Nat
  | [] => none
  | '0' :: 'x' :: [] => none
  | '0' :: 'x' :: ds => digitsValue 16 0 ds
  | ds => digitsValue 10 0 ds

/-- A 32-bit value (R107). -/
def parseValue (cs : List Char) : Option Word32 :=
  match parseNumber cs with
  | some n => if n < 2 ^ 32 then some (BitVec.ofNat 32 n) else none
  | none => none

/-- The decimal index after a register name. -/
def parseIndex (name cs : List Char) : Option Nat :=
  if name.isPrefixOf cs && cs.length != name.length then digitsValue 10 0 (cs.drop name.length) else none

/-- An address: a register name for its offset, or a number of 16 bits (R107). -/
def parseAddr (cs : List Char) : Option Addr :=
  if cs = "CMD".toList then some cmdAddr
  else if cs = "STATUS".toList then some statusAddr
  else if cs = "LEN".toList then some lenAddr
  else if cs = "CAP".toList then some capAddr
  else
    match parseIndex "DIGEST".toList cs, parseIndex "MSG".toList cs, parseNumber cs with
    | some i, _, _ => if i < 16 then some (digestAddr i) else none
    | none, some j, _ => if 0x1000 + 4 * j < 2 ^ 16 then some (msgAddr j) else none
    | none, none, some n => if n < 2 ^ 16 then some (BitVec.ofNat 16 n) else none
    | none, none, none => none

/-- The name of a variant (R108). -/
def parseVariant (cs : List Char) : Option Variant :=
  if cs = "SHA1".toList then some .sha1
  else if cs = "SHA224".toList then some .sha224
  else if cs = "SHA256".toList then some .sha256
  else if cs = "SHA384".toList then some .sha384
  else if cs = "SHA512".toList then some .sha512
  else none

/-- A command mnemonic (R107). -/
def parseMnemonic (cs : List Char) : Option Instr :=
  if cs = "NOP".toList then some .nop
  else if cs = "CLEAR".toList then some .clear
  else if "HASH.".toList.isPrefixOf cs then (parseVariant (cs.drop 5)).map Variant.instr
  else none

/-- The ASCII bytes of a text, none where a character is outside ASCII (R108). -/
def asciiBytes : List Char → Option (List Byte)
  | [] => some []
  | c :: cs =>
      if c.toNat < 128 then (asciiBytes cs).map (BitVec.ofNat 8 c.toNat :: ·) else none

/-- Two hexadecimal digits a byte (R108). -/
def hexBytes : List Char → Option (List Byte)
  | [] => some []
  | [_] => none
  | c :: d :: cs =>
      match digitValue 16 c, digitValue 16 d, hexBytes cs with
      | some x, some y, some bs => some (BitVec.ofNat 8 (16 * x + y) :: bs)
      | _, _, _ => none

/-- The byte string of a LOADMSG given in hexadecimal (R108). -/
def parseHexString : List Char → Option (List Byte)
  | '0' :: 'x' :: ds => hexBytes ds
  | _ => none

/-- A line's pieces as a script line; `some none` is a line that says nothing, `none` a line that is no script line (R107, R108). -/
def parseTokens : List Token → Option (Option ScriptLine)
  | [] => some none
  | [.word w] => (parseMnemonic w).map fun i => some (.command i)
  | [.word w, .text t] =>
      if w = "LOADMSG".toList then (asciiBytes t).map fun bs => some (.loadMsg bs) else none
  | [.word w, .word x] =>
      if w = "RD".toList then (parseAddr x).map fun a => some (.rd a none)
      else if w = "CMD".toList then (parseValue x).map fun v => some (.cmd v)
      else if w = "HASH".toList then (parseVariant x).map fun v => some (.hash v)
      else if w = "READDIGEST".toList then (parseNumber x).map fun k => some (.readDigest k)
      else if w = "LOADMSG".toList then (parseHexString x).map fun bs => some (.loadMsg bs)
      else none
  | [.word w, .word x, .comma, .word y] =>
      if w = "WR".toList then
        match parseAddr x, parseValue y with
        | some a, some v => some (some (.wr a v))
        | _, _ => none
      else none
  | [.word w, .word x, .word arrow, .word y] =>
      if w = "RD".toList && arrow = "->".toList then
        match parseAddr x, parseValue y with
        | some a, some v => some (some (.rd a (some v)))
        | _, _ => none
      else none
  | _ => none

/-- One line of text (R107). -/
def parseLine (cs : List Char) : Option (Option ScriptLine) :=
  match lex .gap cs with
  | some ts => parseTokens ts
  | none => none

/-- The lines of a script, those that say nothing left out; none where one of them is no script line. -/
def parseScript : List (List Char) → Option (List ScriptLine)
  | [] => some []
  | l :: ls =>
      match parseLine l, parseScript ls with
      | some (some x), some xs => some (x :: xs)
      | some none, some xs => some xs
      | _, _ => none

end Sys2Proof.Machine
end

