-- ==== Sys2Proof/Tests/Slice0.lean ====
section
/-! SUPPORT. Tests of single operations and single steps, with the expected results of 95_test_vectors.md and of the examples in the rules, and a witness for the hypotheses of each statement. -/

namespace Sys2Proof.Tests

open Sys2Proof Sys2Proof.Machine

/-! ### Helpers -/

/-- A buffer that holds these bytes from offset 0. -/
def bufferOf (bs : List Byte) : Memory := writeBytes [] 0 bs

/-- The state after reset with these bytes in the buffer, LEN n, and nothing asked. -/
def loaded (bs : List Byte) (n : Word32) : State := { State.reset with mem := bufferOf bs, len := n }

/-- A small CORE, of capacity 4, else as `loaded`. -/
def small (bs : List Byte) (n : Word32) : State := { loaded bs n with cap := 4#32 }

/-- A value of the next state, where there is one. -/
def after {α : Type} (o : Host.Outcome State Fault Refusal) (f : State → α) : Option α :=
  match o with
  | .next s => some (f s)
  | .fault _ => none
  | .refused _ => none

/-- The visible outcome of a command: STATUS and DIGEST. -/
def statusDigest (s : State) : Word32 × List Word32 := (s.status, s.digest.toList)

/-- "abc" and one unused byte, as program P1 loads it. -/
def abc : State := loaded [0x61, 0x62, 0x63, 0x00] 3

/-- A state whose DIGEST is all ones and whose STATUS is BAD_VARIANT's, with LEN 3. -/
def afterError : State := { abc with status := 0x20#32, digest := Vector.replicate 16 0xFFFFFFFF#32 }

/-- A small CORE after a model fault, with CAPACITY in STATUS. -/
def faultedSmall : State := { small [1, 2, 3, 4] 4 with faulted := true, status := 0x30#32 }

/-- One transaction on a state. -/
def bus (tr : Transaction) (s : State) : Host.Outcome State Fault Refusal := step (s.asked (.bus tr))

/-! ### Decoding: words written out from R100 to R104 (95_test_vectors.md 6.1) -/

theorem test_decode_nop : decode 0b00000000000000000000000000000000#32 = .instr .nop := by decide
theorem test_decode_clear : decode 0b00000000000000000000000000000010#32 = .instr .clear := by decide
theorem test_decode_sha1 : decode 0b00000000000000000000000000000001#32 = .instr .hashSha1 := by decide
theorem test_decode_sha224 : decode 0b00000000000000000000000100000001#32 = .instr .hashSha224 := by decide
theorem test_decode_sha256 : decode 0b00000000000000000000001000000001#32 = .instr .hashSha256 := by decide
theorem test_decode_sha384 : decode 0b00000000000000000000001100000001#32 = .instr .hashSha384 := by decide
theorem test_decode_sha512 : decode 0b00000000000000000000010000000001#32 = .instr .hashSha512 := by decide
theorem test_decode_bad_variants : decode 0x00000501#32 = .badVariant ∧ decode 0x00000601#32 = .badVariant ∧ decode 0x00000701#32 = .badVariant := by decide
theorem test_decode_illegal :
    [0x00000100#32, 0x80000002#32, 0x00000801#32, 0x00000F01#32, 0x80000001#32, 0x00000003#32, 0x000000FF#32, 0xFFFFFFFF#32].all
      (fun c => decode c = .illegal) = true := by decide
theorem test_decodeTableWord_rejects : decodeTableWord 32 0x501 = none ∧ decodeTableWord 32 3 = none ∧ decodeTableWord 33 0 = none := by decide

/-! ### Well-formedness: a term that each check refuses -/

theorem test_wf_every_command_word :
    [Instr.nop, .clear, .hashSha1, .hashSha224, .hashSha256, .hashSha384, .hashSha512].all (fun i => i.wf && commandWordWf (encode i)) = true := by decide
theorem test_wf_op_unknown : opKnown 0x00000003#32 = false ∧ commandWordWf 0x00000003#32 = false := by decide
theorem test_wf_reserved_hash : reservedZero 0x00000801#32 = false ∧ commandWordWf 0x00000801#32 = false := by decide
theorem test_wf_reserved_nop : reservedZero 0x00000100#32 = false ∧ commandWordWf 0x00000100#32 = false := by decide
theorem test_wf_variant_unknown : varKnown 0x00000501#32 = false ∧ commandWordWf 0x00000501#32 = false := by decide
theorem test_wf_loadmsg_too_long : (ScriptLine.loadMsg [1, 2, 3, 4, 5]).wf 4 = false ∧ (ScriptLine.loadMsg [1, 2, 3, 4]).wf 4 = true := by decide
theorem test_wf_readdigest_too_many : (ScriptLine.readDigest 17).wf 4096 = false ∧ (ScriptLine.readDigest 16).wf 4096 = true := by decide

/-! ### Primitives (95_test_vectors.md section 2) -/

theorem test_rotates_shifts_32 :
    rotr 0x12345678#32 1 = 0x091A2B3C#32 ∧ rotr 0x12345678#32 31 = 0x2468ACF0#32 ∧ rotl 0x12345678#32 5 = 0x468ACF02#32
      ∧ rotl 0x6A09E667#32 30 = 0xDA827999#32 ∧ shr 0x12345678#32 3 = 0x02468ACF#32 ∧ shr 0x80000000#32 10 = 0x00200000#32 := by decide
theorem test_rotates_shifts_64 :
    rotr 0x0123456789ABCDEF#64 1 = 0x8091A2B3C4D5E6F7#64 ∧ rotr 0x0123456789ABCDEF#64 63 = 0x02468ACF13579BDE#64
      ∧ shr 0x0123456789ABCDEF#64 7 = 0x0002468ACF13579B#64 := by decide
theorem test_rotate_amount_contract :
    rotr? 0x1#32 0 = none ∧ rotr? 0x1#32 32 = none ∧ rotr? 0x1#64 64 = none ∧ rotl? 0x1#32 0 = none ∧ rotl? 0x80000000#32 1 = some 0x1#32 ∧ shr? 0x1#32 32 = none := by decide
theorem test_ch_maj_parity :
    ch 0x12345678#32 0x9ABCDEF0#32 0x0FEDCBA9#32 = 0x1FFDDFF1#32 ∧ maj 0x12345678#32 0x9ABCDEF0#32 0x0FEDCBA9#32 = 0x1ABCDEF8#32
      ∧ parity 0x12345678#32 0x9ABCDEF0#32 0x0FEDCBA9#32 = 0x87654321#32
      ∧ ch 0x0123456789ABCDEF#64 0xFEDCBA9876543210#64 0xF0F0F0F0F0F0F0F0#64 = 0xF0D0B09070503010#64 := by decide
theorem test_sigma_32 :
    bigSigma0_32 0x12345678#32 = 0x66146474#32 ∧ bigSigma1_32 0x12345678#32 = 0x3561ABDA#32 ∧ smallSigma0_32 0x12345678#32 = 0xE7FCE6EE#32
      ∧ smallSigma1_32 0x12345678#32 = 0xA1F78649#32 ∧ smallSigma0_32 0xFFFFFFFF#32 = 0x1FFFFFFF#32 ∧ smallSigma1_32 0xFFFFFFFF#32 = 0x003FFFFF#32 := by decide
theorem test_sigma_64 :
    bigSigma0_64 0x0123456789ABCDEF#64 = 0xB7C57A100C7EC1AB#64 ∧ bigSigma1_64 0x0123456789ABCDEF#64 = 0x7703112333475567#64
      ∧ smallSigma0_64 0x0123456789ABCDEF#64 = 0x6F92C77C6C4F1AA1#64 ∧ smallSigma1_64 0x0123456789ABCDEF#64 = 0x70A3460DBBD4317A#64 := by decide
theorem test_selector_bands :
    ([0, 19, 20, 39, 40, 59, 60, 79] : List (Fin 80)).map (fSel 0xFF00FF00#32 0xF0F0F0F0#32 0xCCCCCCCC#32) =
      [0xF0CCF0CC#32, 0xF0CCF0CC#32, 0xC33CC33C#32, 0xC33CC33C#32, 0xFCC0FCC0#32, 0xFCC0FCC0#32, 0xC33CC33C#32, 0xC33CC33C#32] := by decide
theorem test_addition_wraps :
    (0xFFFFFFFF#32 + 1#32 = 0#32) ∧ (0x80000000#32 + 0x80000000#32 = 0#32) ∧ (0xFFFFFFFFFFFFFFFF#64 + 1#64 = 0#64)
      ∧ (0xFFFFFFFF#32 + 0xFFFFFFFF#32 + 0xFFFFFFFF#32 + 0xFFFFFFFF#32 + 0xFFFFFFFF#32 = 0xFFFFFFFB#32) := by decide

/-! ### Padding and parsing (95_test_vectors.md section 3) -/

theorem test_zero_bits :
    [0, 3, 55, 56, 64, 111, 112].map (fun n => (zeroBits 512 64 (8 * n), blockCount32 n, zeroBits 1024 128 (8 * n), blockCount64 n)) =
      [(447, 1, 895, 1), (423, 1, 871, 1), (7, 1, 455, 1), (511, 2, 447, 1), (447, 2, 383, 1), (71, 2, 7, 1), (63, 2, 1023, 2)] := by decide
theorem test_zero_bytes : zeroBytes32 55 = 0 ∧ zeroBytes32 56 = 63 ∧ zeroBytes64 111 = 0 ∧ zeroBytes64 112 = 127 := by decide
theorem test_parse_pad32_abc :
    parse32 (pad32 [0x61, 0x62, 0x63]) = [#v[0x61626380, 0, 0, 0, 0, 0, 0, 0, 0, 0, 0, 0, 0, 0, 0, 0x00000018]] := by decide +kernel
theorem test_parse_pad64_abc :
    parse64 (pad64 [0x61, 0x62, 0x63]) = [#v[0x6162638000000000, 0, 0, 0, 0, 0, 0, 0, 0, 0, 0, 0, 0, 0, 0, 0x0000000000000018]] := by decide +kernel
theorem test_parse_pad32_two_blocks :
    ((parse32 (pad32 (List.replicate 56 0x61))).map fun b => [b[13], b[14], b[15]]) = [[0x61616161, 0x80000000, 0], [0, 0, 0x000001C0]] := by decide +kernel
theorem test_parse_pad64_two_blocks :
    ((parse64 (pad64 (List.replicate 112 0x61))).map fun b => [b[13], b[14], b[15]]) =
      [[0x6161616161616161, 0x8000000000000000, 0], [0, 0, 0x0000000000000380]] := by decide +kernel

/-! ### The engines on "abc" (95_test_vectors.md sections 4 and 5) -/

/-- The block of Pad32("abc"). -/
def block32 : Block 32 := #v[0x61626380, 0, 0, 0, 0, 0, 0, 0, 0, 0, 0, 0, 0, 0, 0, 0x00000018]

/-- The block of Pad64("abc"). -/
def block64 : Block 64 := #v[0x6162638000000000, 0, 0, 0, 0, 0, 0, 0, 0, 0, 0, 0, 0, 0, 0, 0x0000000000000018]

theorem test_sha1_schedule :
    [16, 17, 18, 19, 79].map (fun t => (sha1Schedule block32).getD t 0) = [0xC2C4C700, 0x00000000, 0x00000030, 0x85898E01, 0x822E0879] := by decide +kernel
theorem test_sha256_schedule :
    [16, 17, 18, 19, 63].map (fun t => (sha256Schedule block32).getD t 0) = [0x61626380, 0x000F0000, 0x7DA86405, 0x600003C6, 0x12B1EDEB] := by decide +kernel
theorem test_sha512_schedule :
    [16, 17, 18, 19, 79].map (fun t => (sha512Schedule block64).getD t 0) =
      [0x6162638000000000, 0x00030000000000C0, 0x0A9699A24C700003, 0x00000C0060000603, 0x92AEEED1A7BCF7D2] := by decide +kernel
theorem test_sha1_round_0 :
    sha1Round 0 (sha1Init ivSha1) 0x61626380 = ⟨0x0116FC33, 0x67452301, 0x7BF36AE2, 0x98BADCFE, 0x10325476⟩ := by decide +kernel
theorem test_sha1_rounds :
    sha1Rounds (sha1Schedule block32) (sha1Init ivSha1) = ⟨0x42541B35, 0x5738D5E1, 0x21834873, 0x681E6DF6, 0xD8FDF6AD⟩ := by decide +kernel
theorem test_sha1_round_20 :
    sha1Round 20 ⟨0xFD9E1D7D, 0xDC64901D, 0x20AA99CA, 0xD3A49608, 0xC82F758B⟩ ((sha1Schedule block32).getD 20 0) =
      ⟨0x1A37B0CA, 0xFD9E1D7D, 0x77192407, 0x20AA99CA, 0xD3A49608⟩ := by decide +kernel
theorem test_sha256_round_0 :
    sha256Round 0x428A2F98 (sha256Init ivSha256) 0x61626380 =
      ⟨0x5D6AEBCD, 0x6A09E667, 0xBB67AE85, 0x3C6EF372, 0xFA2A4622, 0x510E527F, 0x9B05688C, 0x1F83D9AB⟩ := by decide +kernel
theorem test_sha256_rounds :
    sha256Rounds (sha256Schedule block32) (sha256Init ivSha256) =
      ⟨0x506E3058, 0xD39A2165, 0x04D24D6C, 0xB85E2CE9, 0x5EF50F24, 0xFB121210, 0x948D25B6, 0x961F4894⟩ := by decide +kernel
theorem test_sha512_round_0 :
    sha512Round 0x428A2F98D728AE22 (sha512Init ivSha512) 0x6162638000000000 =
      ⟨0xF6AFCEB8BCFCDDF5, 0x6A09E667F3BCC908, 0xBB67AE8584CAA73B, 0x3C6EF372FE94F82B, 0x58CB02347AB51F91, 0x510E527FADE682D1,
        0x9B05688C2B3E6C1F, 0x1F83D9ABFB41BD6B⟩ := by decide +kernel
theorem test_sha512_rounds :
    sha512Rounds (sha512Schedule block64) (sha512Init ivSha512) =
      ⟨0x73A54F399FA4B1B2, 0x10D9C4C4295599F6, 0xD67806DB8B148677, 0x654EF9ABEC389CA9, 0xD08446AA79693ED7, 0x9BB4D39778C07F9E,
        0x25C96A7768FB2AA3, 0xCEB9FC3691CE8326⟩ := by decide +kernel
theorem test_dropped_words_of_abc :
    (finalSha224 [0x61, 0x62, 0x63]).h7 = 0xD2DA082D#32 ∧ (finalSha384 [0x61, 0x62, 0x63]).h7 = 0x0C66918ECE57BA15#64 := by decide +kernel
/-- M448 in two blocks (4.4). -/
theorem test_sha256_two_blocks :
    hashSha256 (be 56 0x6162636462636465636465666465666765666768666768696768696A68696A6B696A6B6C6A6B6C6D6B6C6D6E6C6D6E6F6D6E6F706E6F7071) =
      be 32 0x248d6a61d20638b8e5c026930c3e6039a33ce45964ff2167f6ecedd419db06c1 := by decide +kernel

/-! ### The commands, one step each (44_commands.md; 95_test_vectors.md sections 1, 6, 7) -/

theorem test_nop_keeps_error : after (exec .nop afterError) (fun s => (s.status, s.len, s.digest[0])) = some (0x20, 3, 0xFFFFFFFF) := by decide
theorem test_clear :
    after (exec .clear afterError) (fun s => (s.status, s.len, s.digest, readMsgWord s.mem 0)) =
      some (0, 0, Vector.replicate 16 0, some 0x61626300) := by decide
theorem test_hash_sha1_abc :
    after (exec .hashSha1 abc) statusDigest =
      some (0x1, [0xA9993E36, 0x4706816A, 0xBA3E2571, 0x7850C26C, 0x9CD0D89D, 0, 0, 0, 0, 0, 0, 0, 0, 0, 0, 0]) := by decide +kernel
/-- A HASH.SHA1 right after reset hashes the empty message (section 7). -/
theorem test_hash_sha1_empty :
    after (exec .hashSha1 State.reset) statusDigest =
      some (0x1, [0xDA39A3EE, 0x5E6B4B0D, 0x3255BFEF, 0x95601890, 0xAFD80709, 0, 0, 0, 0, 0, 0, 0, 0, 0, 0, 0]) := by decide +kernel
/-- The known answer sha224("ABCDEFG") of the source, over a DIGEST full of ones (section 1.1, P4). -/
theorem test_hash_sha224_known :
    after (exec .hashSha224 { loaded [0x41, 0x42, 0x43, 0x44, 0x45, 0x46, 0x47, 0x00] 7 with digest := Vector.replicate 16 0xFFFFFFFF#32 }) statusDigest =
      some (0x3, [0xBAE3735E, 0x5822D8C3, 0x0FAFD707, 0x36316E78, 0x07F7CCCF, 0x65E6E73C, 0x15F32A60, 0, 0, 0, 0, 0, 0, 0, 0, 0]) := by decide +kernel
theorem test_hash_sha256_abc :
    after (exec .hashSha256 abc) statusDigest =
      some (0x5, [0xBA7816BF, 0x8F01CFEA, 0x414140DE, 0x5DAE2223, 0xB00361A3, 0x96177A9C, 0xB410FF61, 0xF20015AD, 0, 0, 0, 0, 0, 0, 0, 0]) := by decide +kernel
/-- Copy-on-pad: byte 3 holds 0x5A, the digest is that of "abc", and MSG0 still reads 6162635A (section 3.3). -/
theorem test_hash_sha256_copy_on_pad :
    after (exec .hashSha256 (loaded [0x61, 0x62, 0x63, 0x5A] 3)) (fun s => (s.digest[0], readMsgWord s.mem 0, s.len)) =
      some (0xBA7816BF, some 0x6162635A, 3) := by decide +kernel
theorem test_hash_sha384_abc :
    after (exec .hashSha384 abc) statusDigest =
      some (0x7, [0xCB00753F, 0x45A35E8B, 0xB5A03D69, 0x9AC65007, 0x272C32AB, 0x0EDED163, 0x1A8B605A, 0x43FF5BED, 0x8086072B, 0xA1E7CC23,
        0x58BAECA1, 0x34C825A7, 0, 0, 0, 0]) := by decide +kernel
theorem test_hash_sha512_abc :
    after (exec .hashSha512 abc) statusDigest =
      some (0x9, [0xDDAF35A1, 0x93617ABA, 0xCC417349, 0xAE204131, 0x12E6FA4E, 0x89A97EA2, 0x0A9EEEE6, 0x4B55D39A, 0x2192992A, 0x274FC1A8,
        0x36BA3C23, 0xA3FEEBBD, 0x454D4423, 0x643CE80E, 0x2A9AC94F, 0xA54CA49F]) := by decide +kernel
/-- The known answer sha512("9876543") of the source (section 1.1). -/
theorem test_hash_sha512_known :
    after (exec .hashSha512 (loaded [0x39, 0x38, 0x37, 0x36, 0x35, 0x34, 0x33, 0x00] 7)) (fun s => (s.digest[0], s.digest[15])) =
      some (0xE263C0A5, 0xF45F8896) := by decide +kernel
/-- LEN = 4097 with no word written: CAPACITY, and `faulted` stays false (section 6.2). -/
theorem test_capacity_before_fault :
    after (exec .hashSha1 { afterError with len := 4097, mem := [] }) (fun s => (s.status, s.digest, s.len, s.faulted)) =
      some (0x30, Vector.replicate 16 0, 4097, false) := by decide
/-- LEN = 1 and nothing written: `faulted` (section 7). -/
theorem test_unwritten_byte_faults : after (exec .hashSha1 { State.reset with len := 1 }) (fun s => (s.faulted, s.len)) = some (true, 1) := by decide
/-- LEN = 7 needs word 1 as well (P5). -/
theorem test_unwritten_second_word :
    after (exec .hashSha1 (loaded [0x68, 0x69, 0x6A, 0x6B] 7)) (fun s => s.faulted) = some true := by decide

/-! ### The bus (95_test_vectors.md 6.1, 6.3) -/

theorem test_bus_read_cmd_cap :
    after (bus (.read 0x0000) afterError) State.reply = some (some ⟨.ok, some 0⟩) ∧ after (bus (.read 0x000C) afterError) State.reply = some (some ⟨.ok, some 0x1000⟩) := by
  decide
theorem test_bus_ignored_writes :
    after (bus (.write 0x000C 5) afterError) (fun s => (s.cap, s.reply)) = some (0x1000, some ⟨.ok, none⟩)
      ∧ after (bus (.write 0x0004 0xFFFFFFFF) afterError) (fun s => s.status) = some 0x20
      ∧ after (bus (.write 0x0040 0x12345678) afterError) (fun s => s.digest[0]) = some 0xFFFFFFFF := by decide
theorem test_bus_len : after (bus (.write 0x0008 0xFFFFFFFF) abc) (fun s => (s.len, s.reply)) = some (0xFFFFFFFF, some ⟨.ok, none⟩) := by decide
theorem test_bus_errors :
    ([0x0002, 0x0010, 0x0080, 0x0FFC, 0x2000, 0xFFFC] : List Addr).all
      (fun a => after (bus (.read a) abc) State.reply = some (some ⟨.error, some 0⟩)) = true := by decide
theorem test_bus_misaligned_command : after (bus (.write 0x0002 0x00000201) abc) (fun s => (s.status, s.reply)) = some (0, some ⟨.error, none⟩) := by decide
theorem test_bus_command_illegal :
    after (bus (.write 0x0000 0x00000F01) afterError) (fun s => (s.status, s.digest, s.len, s.reply)) =
      some (0x10, Vector.replicate 16 0, 3, some ⟨.ok, none⟩) := by decide
theorem test_bus_command_bad_variant : after (bus (.write 0x0000 0x00000701) { abc with len := 4097 }) (fun s => s.status) = some 0x20 := by decide
theorem test_bus_msg_write : after (bus (.write 0x1000 0x61626300) State.reset) (fun s => s.mem) = some [(0, 0x61), (1, 0x62), (2, 0x63), (3, 0x00)] := by decide
theorem test_bus_msg_write_in_order :
    after (bus (.write 0x1000 0x01020304) (loaded [] 0)) (fun s => Memory.wf (memWrite (memWrite s.mem 8 4 5) 4 4 6)) = some true := by decide
theorem test_bus_msg_read_last_word :
    after (bus (.read 0x1FFC) { State.reset with mem := memWrite [] 0xFFC 4 0xCAFEF00D }) State.reply = some (some ⟨.ok, some 0xCAFEF00D⟩) := by decide
/-- A read of a word never written is served and is a draw (R40). -/
theorem test_bus_msg_read_unwritten :
    after (bus (.read 0x1000) State.reset) (fun s => (s.reply.map Reply.resp, s.draws, s.mem)) = some (some .ok, 1, []) := by decide
/-- Reset clears the model fault and the flags, and leaves CAP (R370). -/
theorem test_reset_event :
    after (step (faultedSmall.asked .reset)) (fun s => (s.status, s.len, s.cap, s.faulted)) = some (0, 0, 4, false)
      ∧ after (step (faultedSmall.asked .reset)) State.mem = some [] := by decide
theorem test_withFetchWord : after (step (State.reset.withFetchWord 32 0x401)) (fun s => (s.status, s.digest[0], s.reply)) =
    some (0x9, 0xCF83E135, some ⟨.ok, none⟩) := by decide +kernel

/-! ### Host scripts (30_encoding.md R107, R108) -/

theorem test_script_wr : parseLine "WR  0x1000, 0x61626300     ; MSG0".toList = some (some (.wr 0x1000 0x61626300)) := by decide
theorem test_script_rd : parseLine "RD DIGEST15 -> 0x7D41ADDC".toList = some (some (.rd 0x007C (some 0x7D41ADDC))) := by decide
theorem test_script_mnemonic : parseLine "HASH.SHA256".toList = some (some (.command .hashSha256)) ∧ parseLine "; no line".toList = some none := by decide
theorem test_script_loadmsg_text : parseLine "LOADMSG \"ab;c\"".toList = some (some (.loadMsg [0x61, 0x62, 0x3B, 0x63])) := by decide
theorem test_script_rejects : parseLine "WR 0x1000 5".toList = none ∧ parseLine "CMD 0x100000000".toList = none ∧ parseLine "RD DIGEST16".toList = none := by decide
theorem test_expand_loadmsg : expandLine (.loadMsg [0x41, 0x42, 0x43, 0x44, 0x45]) = [.write 0x1000 0x41424344, .write 0x1004 0x45000000, .write 0x0008 5] := by decide
theorem test_expand_hash_readdigest :
    expandLine (.hash .sha512) = [.write 0x0000 0x00000401] ∧ expandLine (.readDigest 2) = [.read 0x0040, .read 0x0044] := by decide

/-! ### Witnesses: states and operands that meet the hypotheses of the statements -/

/-- HashCompletesWithDigest and the five result statements: "abc", LEN 3. -/
theorem witness_holds_abc : abc.HoldsMessage [0x61, 0x62, 0x63] ∧ ([0x61, 0x62, 0x63] : List Byte).length ≤ abc.cap.toNat := by
  unfold State.HoldsMessage
  decide +kernel
/-- The same at the two ends of the range of LEN: the empty message on an empty buffer, and LEN = MSG_CAP. -/
theorem witness_holds_ends : State.reset.HoldsMessage [] ∧ (small [1, 2, 3, 4] 4).HoldsMessage [1, 2, 3, 4] ∧ (small [1, 2, 3, 4] 4).cap.toNat = 4 := by
  unfold State.HoldsMessage
  decide +kernel
/-- HashAboveCapacityIsError: one above the capacity. -/
theorem witness_above_capacity : (small [] 5).cap.toNat < (small [] 5).len.toNat := by decide
/-- HashOfUnwrittenByteSetsFaulted: the last byte alone is of a never-written word. -/
theorem witness_unwritten : (loaded [1, 2, 3, 4] 5).len.toNat ≤ (loaded [1, 2, 3, 4] 5).cap.toNat
    ∧ ∃ k, k < (loaded [1, 2, 3, 4] 5).len.toNat ∧ written (loaded [1, 2, 3, 4] 5).mem (k / 4) = false := ⟨by decide +kernel, 4, by decide +kernel, by decide +kernel⟩
/-- FaultedChangesOnlyAsSpecified: a command that changes `faulted`, a step that sets it, and a step with `faulted` set. -/
theorem witness_faulted : (∃ t, exec .hashSha1 (loaded [] 1) = .next t ∧ t.faulted ≠ (loaded [] 1).faulted)
    ∧ (∃ t, step ((loaded [] 1).asked (commandEvent (encode .hashSha1))) = .next t ∧ (loaded [] 1).faulted = false ∧ t.faulted = true)
    ∧ ∃ s t : State, step s = .next t ∧ s.faulted = true :=
  ⟨⟨_, rfl, by decide⟩, ⟨_, rfl, rfl, rfl⟩, ⟨{ abc with faulted := true }, _, rfl, rfl⟩⟩
/-- HashDependsOnlyOnItsMessage: two states that differ in DIGEST, STATUS and in the byte after the message. -/
theorem witness_same_message :
    abc.len = (loaded [0x61, 0x62, 0x63, 0x5A] 3).len ∧ abc.len.toNat ≤ abc.cap.toNat
      ∧ (∀ k, k < abc.len.toNat → written abc.mem (k / 4) = true ∧ written (loaded [0x61, 0x62, 0x63, 0x5A] 3).mem (k / 4) = true
          ∧ readByte abc.mem k = readByte (loaded [0x61, 0x62, 0x63, 0x5A] 3).mem k) := by decide +kernel
theorem witness_same_message_runs : (∃ t, exec Variant.sha1.instr abc = .next t) ∧ ∃ t, exec Variant.sha1.instr (loaded [0x61, 0x62, 0x63, 0x5A] 3) = .next t :=
  ⟨⟨_, rfl⟩, ⟨_, rfl⟩⟩
/-- CommandFrame: a next state of NOP, of CLEAR and of a HASH. -/
theorem witness_command_next : (∃ t, exec .nop abc = .next t) ∧ (∃ t, exec .clear abc = .next t) ∧ ∃ t, exec .hashSha512 abc = .next t :=
  ⟨⟨_, rfl⟩, ⟨_, rfl⟩, ⟨_, rfl⟩⟩
/-- IllegalWordIsError: a word for each of its three cases, at the edge of the case. -/
theorem witness_illegal_words :
    (0x00000003#32).toNat % 256 ∉ [0, 1, 2] ∧ ((0x00000100#32).toNat % 256 ∈ [0, 2] ∧ (0x00000100#32).toNat / 256 ≠ 0)
      ∧ ((0x00000801#32).toNat % 256 = 1 ∧ (0x00000801#32).toNat / 2048 ≠ 0) := by decide
/-- BadVariantIsError: its three words. -/
theorem witness_bad_variant_words :
    [0x00000501#32, 0x00000601#32, 0x00000701#32].all (fun c => c.toNat % 256 = 1 ∧ c.toNat / 2048 = 0 ∧ c.toNat / 256 % 8 ∈ [5, 6, 7]) = true := by decide
/-- ErrorPriority: a word for each of its cases, at the edges of VAR (its illegal words are those of IllegalWordIsError), and a state for each case of LEN. -/
theorem witness_priority :
    ((0x00000F01#32).toNat % 256 = 1 ∧ (0x00000F01#32).toNat / 2048 ≠ 0)
      ∧ ((0x00000501#32).toNat % 256 = 1 ∧ (0x00000501#32).toNat / 2048 = 0 ∧ 5 ≤ (0x00000501#32).toNat / 256 % 8)
      ∧ ((0x00000401#32).toNat % 256 = 1 ∧ (0x00000401#32).toNat / 2048 = 0 ∧ (0x00000401#32).toNat / 256 % 8 < 5)
      ∧ (small [] 5).cap.toNat < (small [] 5).len.toNat ∧ (small [] 4).len.toNat ≤ (small [] 4).cap.toNat
      ∧ 3 < (small [] 4).len.toNat ∧ written (small [] 4).mem (3 / 4) = false := by decide +kernel
/-- NopChangesNothing: a word with OP = 0 that is not NOP. -/
theorem witness_not_nop : (0x00000100#32).toNat % 256 = 0 ∧ (0x00000100#32).toNat / 256 ≠ 0 := by decide
/-- HashSha1Result and HashSha384Result: messages at the edges of a block. -/
theorem witness_block_edges : (List.replicate 55 (0x61 : Byte)).length = 55 ∧ (List.replicate 56 (0x61 : Byte)).length = 56
    ∧ (List.replicate 111 (0x61 : Byte)).length = 111 ∧ (List.replicate 112 (0x61 : Byte)).length = 112 := by decide
/-- UseSequenceGivesDigest: a state that has been used before, and messages of the two ends of the range on a small CORE. -/
theorem witness_use_sequence : Config.LegalMsgCap afterError.cap ∧ ([0x61, 0x62, 0x63] : List Byte).length ≤ afterError.cap.toNat
    ∧ Config.LegalMsgCap faultedSmall.cap ∧ ([] : List Byte).length ≤ faultedSmall.cap.toNat ∧ ([1, 2, 3, 4] : List Byte).length = faultedSmall.cap.toNat := by decide
/-- The same run on "abc" with SHA-1. -/
theorem test_use_sequence : after (core.run 3 (afterError.withScript [.loadMsg [0x61, 0x62, 0x63], .hash .sha1])) (fun s => (s.status, s.digest[0], s.digest[5], s.pending)) =
    some (0x1, 0xA9993E36, 0, []) := by decide +kernel
/-- The capacity is legal at the ends of its range (BusErrorExactlyWhereUnmapped and the message word statements). -/
theorem witness_legal_caps : Config.LegalMsgCap abc.cap ∧ Config.LegalMsgCap (small [] 0).cap ∧ Config.LegalMsgCap 61440#32 := by decide
/-- BusErrorExactlyWhereUnmapped: an address at each end of each range that is an error, and at each end of each range that is none. -/
theorem witness_addresses :
    Config.LegalMsgCap abc.cap
      ∧ ([0x0001, 0x0010, 0x003C, 0x0080, 0x0FFC, 0x2000, 0xFFFC] : List Addr).all (fun a =>
        a.toNat % 4 ≠ 0 ∨ (0x10 ≤ a.toNat ∧ a.toNat < 0x40) ∨ (0x80 ≤ a.toNat ∧ a.toNat < 0x1000) ∨ 0x1000 + abc.cap.toNat ≤ a.toNat) = true
      ∧ ([0x0000, 0x000C, 0x0040, 0x007C, 0x1000, 0x1FFC] : List Addr).all (fun a =>
        ¬(a.toNat % 4 ≠ 0 ∨ (0x10 ≤ a.toNat ∧ a.toNat < 0x40) ∨ (0x80 ≤ a.toNat ∧ a.toNat < 0x1000) ∨ 0x1000 + abc.cap.toNat ≤ a.toNat)) = true := by decide +kernel
/-- The message word statements: the first and the last word of the buffer, written and not written, and two different words. -/
theorem witness_words : Config.LegalMsgCap abc.cap ∧ 4 * 0 < abc.cap.toNat ∧ 4 * 1023 < abc.cap.toNat ∧ (0 ≠ 1023) ∧ written abc.mem 1023 = false ∧ Memory.wf abc.mem = true
    ∧ readByte abc.mem (4 * 0) = some 0x61 ∧ readByte abc.mem (4 * 0 + 1) = some 0x62 ∧ readByte abc.mem (4 * 0 + 2) = some 0x63
    ∧ readByte abc.mem (4 * 0 + 3) = some 0x00 := by decide +kernel
/-- MsgReadReturnsLastWrite and ReadsChangeNothingWritesIdempotent: the transactions they suppose are served. -/
theorem witness_served :
    (∃ t, step (abc.asked (.bus (.write (BitVec.ofNat 16 (0x1000 + 4 * 0)) 5))) = .next t
        ∧ ∃ u, step (t.asked (.bus (.write (BitVec.ofNat 16 (0x1000 + 4 * 1023)) 6))) = .next u)
      ∧ (∃ t, step (abc.asked (.bus (.write (BitVec.ofNat 16 (0x1000 + 4 * 0)) 5))) = .next t
        ∧ ∃ u, step (t.asked (.bus (.write (BitVec.ofNat 16 (0x1000 + 4 * 0)) 5))) = .next u)
      ∧ (∃ t, step (abc.asked (.bus (.write 0x0008#16 5))) = .next t ∧ ∃ u, step (t.asked (.bus (.write 0x0008#16 5))) = .next u)
      ∧ ∃ t, step (abc.asked (.bus (.read 0x1000))) = .next t :=
  ⟨⟨_, rfl, _, rfl⟩, ⟨_, rfl, _, rfl⟩, ⟨_, rfl, _, rfl⟩, ⟨_, rfl⟩⟩
/-- StepRunsDecodedCommand: a word that decodes, first in a queue. -/
theorem witness_decoded : decode 0x00000201#32 = .instr .hashSha256
    ∧ (abc.asked (.bus (.write 0x0000#16 0x00000201#32))).pending = .bus (.write 0x0000#16 0x00000201#32) :: abc.pending := by decide
/-- EveryStepKeepsInvariant: a state with the invariant, not the one after reset, and a step of it. -/
theorem witness_invariant : abc.Inv ∧ ∃ t, step abc = .next t := by
  refine ⟨?_, _, rfl⟩
  have hbuf : ∀ k, readByte abc.mem k = if k = 0 then some 0x61 else if k = 1 then some 0x62 else if k = 2 then some 0x63 else if k = 3 then some 0x00 else none := by
    intro k
    simp only [abc, loaded, bufferOf, writeBytes, readByte_writeByte, readByte_nil]
    split_ifs <;> first | rfl | omega
  have hk : ∀ k, (readByte abc.mem k).isSome = true → k < 4 := by
    intro k h
    rw [hbuf] at h
    split_ifs at h <;> first | omega | simp at h
  have hd : ∀ i : Fin 16, abc.digest[i] = 0x00000000#32 := by decide
  exact {
    capLegal := by decide
    memCanonical := by decide
    memInBuffer := fun k h => lt_trans (hk k h) (by decide)
    memWholeWords := fun k h => by
      have : k / 4 = 0 := by have := hk k h; omega
      rw [this]
      decide
    statusLegal := by decide
    digestOccupied := fun _ i _ => hd i }
/-- OnlyTheseEventsChangeState and EveryStepCompletes: a state with an event, a step of it, and each kind of change. -/
theorem witness_changes :
    (∃ t, step (afterError.asked (commandEvent 0x00000002#32)) = .next t ∧ t.status ≠ afterError.status ∧ t.len ≠ afterError.len)
      ∧ (∃ t, step (abc.asked (.bus (.write 0x1FFC 1))) = .next t ∧ t.mem ≠ abc.mem)
      ∧ (∃ t, step (abc.asked (.bus (.write 0x0008 1))) = .next t ∧ t.len ≠ abc.len) ∧ State.reset.pending = [] :=
  ⟨⟨_, rfl, by decide, by decide⟩, ⟨_, rfl, by decide⟩, ⟨_, rfl, by decide⟩, rfl⟩
/-- EngineRegistersNeverObserved: two states that differ in the engine's registers and step. -/
theorem witness_engines :
    (∃ t, step (abc.asked (commandEvent 0x00000001#32)) = .next t)
      ∧ ∃ t, step { abc.asked (commandEvent 0x00000001#32) with engine32 := { abc.engine32 with h := ⟨1, 2, 3, 4, 5, 6, 7, 8⟩ }, engine64 := abc.engine64 } = .next t :=
  ⟨⟨_, rfl⟩, ⟨_, rfl⟩⟩
/-- The statements with bounds alone: rotate amounts at both ends, the edges of F, the ends of a schedule, blocks and bit positions. -/
theorem witness_bounds :
    (1 ≤ 1 ∧ 1 < 32) ∧ (1 ≤ 63 ∧ 63 < 64) ∧ ((1 : Fin 80).val = (0 : Fin 80).val + 1) ∧ ((20 : Fin 80).val = (19 : Fin 80).val + 1)
      ∧ ((79 : Fin 80).val = (78 : Fin 80).val + 1) ∧ (16 ≤ 16 ∧ 16 < 80) ∧ (16 ≤ 79 ∧ 79 < 80) ∧ (16 ≤ 63 ∧ 63 < 64) := by decide
/-- ZeroBitCountIsLeast, PadRecoversLength and ParseReadsBigEndianWords: both families' parameters, the empty message, a padded string of one block. -/
theorem witness_padding :
    (0 < 512 ∧ 64 ≤ 512) ∧ (0 < 1024 ∧ 128 ≤ 1024) ∧ (24 + 1 + zeroBits 512 64 24) % 512 = (512 - 64) % 512 ∧ 8 * ([] : List Byte).length < 2 ^ 64
      ∧ (pad32 []).length = 64 * 1 ∧ (pad64 []).length = 128 * 1 := by decide
/-- RoundsConsumeScheduleInOrder: schedules of full length. -/
theorem witness_schedules : (sha1Schedule block32).length = 80 ∧ (sha256Schedule block32).length = 64 ∧ (sha512Schedule block64).length = 80 := by decide +kernel

end Sys2Proof.Tests
end

namespace Sys2Proof.Machine

/-- A step on a state with an event takes up the oldest one, has one of the effects of that event, and leaves the later ones (R11, R348). -/
theorem step_serves_oldest {s : State} {e : HostEvent} {rest : List HostEvent} (h : s.pending = e :: rest) :
    ∃ t, step s = .next t ∧ EventEffect e (s.taken rest) t ∧ t.pending = rest := by
  obtain ⟨t, ht⟩ := serve_total e (s.taken rest)
  have heff : EventEffect e (s.taken rest) t := serve_cases ht
  exact ⟨t, (step_pending h).trans ht, heff, eventEffect_pending heff⟩

/-- Settles O30, by whether the host has an event pending. -/
theorem everyStepCompletes : Obligations.EveryStepCompletes := by
  intro s
  rcases hp : s.pending with _ | ⟨e, rest⟩
  · exact ⟨s, step_idle hp, fun _ => rfl, fun _ _ h => (nomatch h)⟩
  · obtain ⟨t, hstep, -, hrest⟩ := step_serves_oldest hp
    refine ⟨t, hstep, fun h => (nomatch h), fun e' rest' h => ?_⟩
    obtain ⟨-, rfl⟩ := List.cons.inj h
    exact hrest

/-- Settles O12: what is serialized is always the same number of State Vector words, whatever the message made them. -/
theorem digestLengthIsFixed : Obligations.DigestLengthIsFixed := fun m =>
  ⟨hashSha1_length m, hashSha224_length m, hashSha256_length m, hashSha384_length m, hashSha512_length m⟩

end Sys2Proof.Machine

namespace Sys2Proof

/-- A command word that decodes is the encoder's word of its command (R104). -/
theorem eq_encode_of_decode {c : Word32} {i : Instr} (h : decode c = .instr i) : c = encode i := by
  apply BitVec.eq_of_toNat_eq
  rw [decode_eq] at h
  split_ifs at h <;> cases h
  all_goals
    simp only [encode, commandWord, opNop, opClear, opHash, Variant.code, BitVec.reduceAppend, BitVec.reduceToNat]
    omega

end Sys2Proof

namespace Sys2Proof.Machine

/-! ### The zeros beyond the digest (10_state.md R38; 44_commands.md R310) -/

/-- Every digest has the length its variant names (R102, R310). -/
theorem hashOf_length (v : Variant) (m : List Byte) : (hashOf v m).length = v.digestBytes := by
  cases v with
  | sha1 => exact hashSha1_length m
  | sha224 => exact hashSha224_length m
  | sha256 => exact hashSha256_length m
  | sha384 => exact hashSha384_length m
  | sha512 => exact hashSha512_length m

theorem beVal_zeros (k : Nat) : beVal (List.replicate k 0x00#8) = 0 := by
  induction k with
  | zero => rfl
  | succ k ih => simp [List.replicate_succ, ih]

/-- A DIGEST register beyond the bytes of `d` holds zero padding alone. -/
theorem packDigest_padding (d : List Byte) (k : Nat) (i : Fin 16) (hi : d.length ≤ 4 * i.val) :
    (packDigest (d ++ List.replicate k 0x00#8))[i] = 0x00000000#32 := by
  have hpad : (d ++ List.replicate k 0x00#8).drop (4 * i.val) = List.replicate (k - (4 * i.val - d.length)) 0x00#8 := by
    rw [List.drop_append, List.drop_eq_nil_of_le hi, List.nil_append, List.drop_replicate]
  simp [packDigest, hpad, List.take_replicate, beVal_zeros]

theorem digestOccupancy_of_zeros {s : State} (h : s.digest = Vector.replicate 16 0x00000000#32) : DigestOccupancy s :=
  fun i _ => by simp [h]

/-- A completed HASH leaves zeros beyond its digest (R304, R310). -/
theorem digestOccupancy_emitDigest (s : State) (v : Variant) (m : List Byte) : DigestOccupancy (s.emitDigest v (hashOf v m)) := by
  intro i hi
  rw [emitDigest_status, digestBytesOf_hashStatus, ← hashOf_length v m] at hi
  exact packDigest_padding _ _ i hi

/-! ### The invariant, operation by operation -/

/-- An empty buffer meets all that the invariant asks of it. -/
theorem State.Inv.of_emptyBuffer {s : State} (hcap : Config.LegalMsgCap s.cap) (hmem : s.mem = []) (hstatus : legalStatus s.status = true)
    (hdigest : s.faulted = false → DigestOccupancy s) : s.Inv where
  capLegal := hcap
  memCanonical := by rw [hmem]; rfl
  memInBuffer := by simp [hmem]
  memWholeWords := by simp [hmem]
  statusLegal := hstatus
  digestOccupied := hdigest

/-- Where CAP and the buffer are as before, STATUS and DIGEST alone are to be checked. -/
theorem State.Inv.of_sameBuffer {s t : State} (hs : s.Inv) (hcap : t.cap = s.cap) (hmem : t.mem = s.mem) (hstatus : legalStatus t.status = true)
    (hdigest : t.faulted = false → DigestOccupancy t) : t.Inv where
  capLegal := by rw [hcap]; exact hs.capLegal
  memCanonical := by rw [hmem]; exact hs.memCanonical
  memInBuffer := by rw [hmem, hcap]; exact hs.memInBuffer
  memWholeWords := by rw [hmem]; exact hs.memWholeWords
  statusLegal := hstatus
  digestOccupied := hdigest

theorem inv_taken {s : State} (h : s.Inv) (rest : List HostEvent) : (s.taken rest).Inv :=
  h.of_sameBuffer rfl rfl h.statusLegal h.digestOccupied

theorem inv_setReply {s : State} (h : s.Inv) (r : Reply) : (s.setReply r).Inv :=
  h.of_sameBuffer rfl rfl h.statusLegal h.digestOccupied

theorem inv_drawn {s : State} (h : s.Inv) : s.drawn.Inv :=
  h.of_sameBuffer rfl rfl h.statusLegal h.digestOccupied

theorem inv_setLen {s : State} (h : s.Inv) (v : Word32) : (s.setLen v).Inv :=
  h.of_sameBuffer rfl rfl h.statusLegal h.digestOccupied

theorem inv_clearRegs {s : State} (h : s.Inv) : s.clearRegs.Inv :=
  h.of_sameBuffer rfl rfl legalStatus_zero fun _ => digestOccupancy_of_zeros rfl

theorem inv_raiseCmdError {s : State} (h : s.Inv) (e : CmdError) : (s.raiseCmdError e).Inv :=
  h.of_sameBuffer rfl rfl (legalStatus_errStatus e) fun _ => digestOccupancy_of_zeros rfl

/-- After a model fault nothing is asked of DIGEST, and its free STATUS is a legal one (R41). -/
theorem inv_modelFault {s : State} (h : s.Inv) : s.modelFault.Inv :=
  h.of_sameBuffer rfl rfl (legalStatus_free s.draws) fun hf => (nomatch hf)

theorem inv_emitDigest {s : State} (h : s.Inv) (v : Variant) (m : List Byte) : (s.emitDigest v (hashOf v m)).Inv :=
  h.of_sameBuffer rfl rfl (legalStatus_hashStatus v) fun _ => digestOccupancy_emitDigest s v m

theorem inv_resetEvent {s : State} (h : s.Inv) : s.resetEvent.Inv :=
  .of_emptyBuffer h.capLegal rfl legalStatus_zero fun _ => digestOccupancy_of_zeros rfl

/-- The bytes listed after the write of word j are the four of word j and those listed before (R73). -/
theorem readByte_isSome_memWrite {m : Memory} {j v k : Nat} (h : (readByte (memWrite m (4 * j) 4 v) k).isSome = true) :
    k / 4 = j ∨ (readByte m k).isSome = true := by
  rw [readByte_memWrite] at h
  split at h
  · exact .inl (by omega)
  · exact .inr h

/-- The write of a message word whose first byte is in the buffer: the capacity is a multiple of 4, so the other three are (R5, R39, R73). -/
theorem inv_writeMsgWord {s : State} (h : s.Inv) {j : Nat} (hj : 4 * j < s.cap.toNat) (v : Word32) : (s.writeMsgWord j v).Inv where
  capLegal := h.capLegal
  memCanonical := memWrite_wf _ _ _ _ h.memCanonical
  memInBuffer k hk := by
    obtain ⟨-, -, hwords⟩ := h.capLegal
    rw [writeMsgWord_cap]
    rcases readByte_isSome_memWrite hk with hkj | hk
    · omega
    · exact h.memInBuffer k hk
  memWholeWords k hk := by
    rw [writeMsgWord_mem, written_memWrite, Bool.or_eq_true, decide_eq_true_eq]
    exact (readByte_isSome_memWrite hk).imp_right (h.memWholeWords k)
  statusLegal := h.statusLegal
  digestOccupied := h.digestOccupied

/-! ### The invariant, from commands to steps -/

theorem exec_inv {i : Instr} {s t : State} (h : exec i s = .next t) (hs : s.Inv) : t.Inv := by
  rcases exec_next_cases h with ⟨-, rfl⟩ | ⟨-, rfl⟩ | ⟨v, -, ⟨-, rfl⟩ | ⟨-, -, rfl⟩ | ⟨m, -, -, rfl⟩⟩
  · exact hs
  · exact inv_clearRegs hs
  · exact inv_raiseCmdError hs .capacity
  · exact inv_modelFault hs
  · exact inv_emitDigest hs v m

theorem commandEffect_inv {c : Word32} {s t : State} (h : CommandEffect c s t) (hs : s.Inv) : t.Inv := by
  cases h with
  | illegal => exact inv_raiseCmdError hs .illegalCmd
  | badVariant => exact inv_raiseCmdError hs .badVariant
  | executed _ i _ hx => exact exec_inv hx hs

theorem eventEffect_inv {e : HostEvent} {s t : State} (h : EventEffect e s t) (hs : s.Inv) : t.Inv := by
  cases h with
  | reset => exact inv_resetEvent hs
  | answered _ _ r => exact inv_setReply hs r
  | drawn _ _ r => exact inv_setReply (inv_drawn hs) r
  | lenWritten _ v => exact inv_setReply (inv_setLen hs v) okWrite
  | msgWritten _ _ _ v _ hj => exact inv_setReply (inv_writeMsgWord hs hj v) okWrite
  | command _ _ _ hc => exact inv_setReply (commandEffect_inv hc hs) okWrite

/-- Settles O34, by what the step does: nothing, or the effect of the event it takes up. -/
theorem everyStepKeepsInvariant : Obligations.EveryStepKeepsInvariant := by
  intro s t hs hstep
  rcases step_cases hstep with ⟨-, rfl⟩ | ⟨e, rest, -, heff⟩
  · exact hs
  · exact eventEffect_inv heff (inv_taken hs rest)

/-- Settles O33: an empty buffer, a legal STATUS and zeros in DIGEST. -/
theorem invariantAtReset : Obligations.InvariantAtReset :=
  .of_emptyBuffer (by decide) rfl legalStatus_zero fun _ => digestOccupancy_of_zeros rfl

/-- Settles O31: the values `State.reset` writes out, and on the empty buffer no word is written. -/
theorem resetValues : Obligations.ResetValues := by
  have hdigest : ∀ i : Fin 16, State.reset.digest[i] = 0x00000000#32 := fun i => by simp [State.reset]
  exact ⟨rfl, rfl, hdigest, fun _ => rfl, rfl, rfl⟩

/-! ### The model fault bit (10_state.md R41) -/

/-- A HASH on this state would pass the capacity check and consume a byte of a word never written (R41, R304). -/
def ConsumesUnwritten (s : State) : Prop :=
  s.len.toNat ≤ s.cap.toNat ∧ ∃ k, k < s.len.toNat ∧ written s.mem (k / 4) = false

/-- On such a state every HASH is the model fault. -/
theorem exec_hash_of_consumesUnwritten (v : Variant) {s : State} (h : ConsumesUnwritten s) : exec v.instr s = .next s.modelFault := by
  obtain ⟨hcap, hunwritten⟩ := h
  rw [exec_hash]
  exact execHash_unwritten v _ s hcap ((messageOperand_eq_none _ _).mpr hunwritten)

/-- The model fault leaves what no HASH changes. -/
theorem sameInputs_modelFault (s : State) : SameInputs s s.modelFault :=
  ⟨rfl, rfl, rfl, fun _ => rfl, fun _ => rfl, rfl, rfl⟩

/-- Settles O14: the state after such a HASH is `modelFault`'s. -/
theorem hashOfUnwrittenByteSetsFaulted : Obligations.HashOfUnwrittenByteSetsFaulted := fun v s hcap hunwritten =>
  ⟨s.modelFault, exec_hash_of_consumesUnwritten v ⟨hcap, hunwritten⟩, rfl, legalStatus_free s.draws, sameInputs_modelFault s⟩

/-- A command leaves `faulted`, or it is a HASH that consumes an unwritten byte and sets it. -/
theorem exec_faulted {i : Instr} {s t : State} (h : exec i s = .next t) :
    t.faulted = s.faulted ∨ (t.faulted = true ∧ (∃ v : Variant, i = v.instr) ∧ ConsumesUnwritten s) := by
  rcases exec_next_cases h with ⟨-, rfl⟩ | ⟨-, rfl⟩ | ⟨v, rfl, ⟨-, rfl⟩ | ⟨hcap, hm, rfl⟩ | ⟨m, -, -, rfl⟩⟩
  · exact .inl rfl
  · exact .inl rfl
  · exact .inl rfl
  · exact .inr ⟨rfl, ⟨v, rfl⟩, hcap, (messageOperand_eq_none _ _).mp hm⟩
  · exact .inl rfl

/-- A rejected command word leaves `faulted`. -/
theorem commandEffect_faulted {c : Word32} {s t : State} (h : CommandEffect c s t) :
    t.faulted = s.faulted ∨ (t.faulted = true ∧ (∃ v : Variant, c = encode v.instr) ∧ ConsumesUnwritten s) := by
  cases h with
  | illegal => exact .inl rfl
  | badVariant => exact .inl rfl
  | executed _ i hd hx =>
    refine (exec_faulted hx).imp_right ?_
    rintro ⟨hset, ⟨v, rfl⟩, hs⟩
    exact ⟨hset, ⟨v, eq_encode_of_decode hd⟩, hs⟩

/-- An event leaves `faulted`, or is the reset, which clears it, or hands over a HASH that sets it. -/
theorem eventEffect_faulted {e : HostEvent} {s t : State} (h : EventEffect e s t) :
    t.faulted = s.faulted ∨ (t.faulted = false ∧ e = .reset)
      ∨ (t.faulted = true ∧ (∃ v : Variant, e = commandEvent (encode v.instr)) ∧ ConsumesUnwritten s) := by
  cases h with
  | reset => exact .inr (.inl ⟨rfl, rfl⟩)
  | answered => exact .inl rfl
  | drawn => exact .inl rfl
  | lenWritten => exact .inl rfl
  | msgWritten => exact .inl rfl
  | command c _ u hc =>
    rcases commandEffect_faulted hc with hsame | ⟨hset, ⟨v, rfl⟩, hs⟩
    · exact .inl hsame
    · exact .inr (.inr ⟨hset, ⟨v, rfl⟩, hs⟩)

/-- A step that sets `faulted` serves a HASH that consumes an unwritten byte. -/
theorem step_sets_faulted {s t : State} (h : step s = .next t) (hs : s.faulted = false) (ht : t.faulted = true) :
    (∃ (v : Variant) (rest : List HostEvent), s.pending = commandEvent (encode v.instr) :: rest) ∧ ConsumesUnwritten s := by
  rcases step_cases h with ⟨-, rfl⟩ | ⟨e, rest, hp, heff⟩
  · simp [hs] at ht
  · rcases eventEffect_faulted heff with hsame | ⟨hclear, -⟩ | ⟨-, ⟨v, rfl⟩, hu⟩
    · simp [hs, ht] at hsame
    · simp [ht] at hclear
    · exact ⟨⟨v, rest, hp⟩, hu⟩

/-- Only reset clears `faulted`. -/
theorem step_keeps_faulted {s t : State} (h : step s = .next t) (hs : s.faulted = true) : t.faulted = true ∨ ∃ rest, s.pending = .reset :: rest := by
  rcases step_cases h with ⟨-, rfl⟩ | ⟨e, rest, hp, heff⟩
  · exact .inl hs
  · rcases eventEffect_faulted heff with hsame | ⟨-, rfl⟩ | ⟨hset, -, -⟩
    · exact .inl (hsame.trans hs)
    · exact .inr ⟨rest, hp⟩
    · exact .inl hset

/-- Settles O15: of commands, of steps that set `faulted`, and of steps that find it set. -/
theorem faultedChangesOnlyAsSpecified : Obligations.FaultedChangesOnlyAsSpecified := by
  refine ⟨fun i s t h hne => ?_, fun _ _ => step_sets_faulted, fun _ _ => step_keeps_faulted⟩
  exact ((exec_faulted h).resolve_left hne).2

/-! ### Which events change each register (10_state.md R32, R36 to R39) -/

theorem exec_cap_mem {i : Instr} {s t : State} (h : exec i s = .next t) : t.cap = s.cap ∧ t.mem = s.mem := by
  rcases exec_next_cases h with ⟨-, rfl⟩ | ⟨-, rfl⟩ | ⟨v, -, ⟨-, rfl⟩ | ⟨-, -, rfl⟩ | ⟨m, -, -, rfl⟩⟩ <;> exact ⟨rfl, rfl⟩

/-- Of the commands, CLEAR alone changes LEN (R301, R303). -/
theorem exec_len {i : Instr} {s t : State} (h : exec i s = .next t) : t.len = s.len ∨ i = .clear := by
  rcases exec_next_cases h with ⟨-, rfl⟩ | ⟨rfl, -⟩ | ⟨v, -, ⟨-, rfl⟩ | ⟨-, -, rfl⟩ | ⟨m, -, -, rfl⟩⟩
  · exact .inl rfl
  · exact .inr rfl
  · exact .inl rfl
  · exact .inl rfl
  · exact .inl rfl

theorem commandEffect_cap_mem {c : Word32} {s t : State} (h : CommandEffect c s t) : t.cap = s.cap ∧ t.mem = s.mem := by
  cases h with
  | illegal => exact ⟨rfl, rfl⟩
  | badVariant => exact ⟨rfl, rfl⟩
  | executed _ i _ hx => exact exec_cap_mem hx

theorem commandEffect_len {c : Word32} {s t : State} (h : CommandEffect c s t) : t.len = s.len ∨ c = encode .clear := by
  cases h with
  | illegal => exact .inl rfl
  | badVariant => exact .inl rfl
  | executed _ i hd hx =>
    refine (exec_len hx).imp_right ?_
    rintro rfl
    exact eq_encode_of_decode hd

theorem eventEffect_cap {e : HostEvent} {s t : State} (h : EventEffect e s t) : t.cap = s.cap := by
  cases h with
  | command c _ u hc => exact (commandEffect_cap_mem hc).1
  | _ => rfl

theorem eventEffect_status_digest {e : HostEvent} {s t : State} (h : EventEffect e s t) :
    (t.status = s.status ∧ t.digest = s.digest) ∨ e = .reset ∨ ∃ c, e = commandEvent c := by
  cases h with
  | reset => exact .inr (.inl rfl)
  | command c => exact .inr (.inr ⟨c, rfl⟩)
  | _ => exact .inl ⟨rfl, rfl⟩

theorem eventEffect_len {e : HostEvent} {s t : State} (h : EventEffect e s t) :
    t.len = s.len ∨ e = .reset ∨ (∃ v, e = .bus (.write lenAddr v)) ∨ e = commandEvent (encode .clear) := by
  cases h with
  | reset => exact .inr (.inl rfl)
  | lenWritten _ v => exact .inr (.inr (.inl ⟨v, rfl⟩))
  | command c _ u hc =>
    rcases commandEffect_len hc with hsame | rfl
    · exact .inl hsame
    · exact .inr (.inr (.inr rfl))
  | _ => exact .inl rfl

theorem eventEffect_mem {e : HostEvent} {s t : State} (h : EventEffect e s t) :
    t.mem = s.mem ∨ e = .reset ∨ ∃ a v, e = .bus (.write a v) ∧ 0x1000 ≤ a.toNat ∧ a.toNat < 0x1000 + s.cap.toNat := by
  cases h with
  | reset => exact .inr (.inl rfl)
  | msgWritten a _ j v ha hj => exact .inr (.inr ⟨a, v, rfl, by omega, by omega⟩)
  | command c _ u hc => exact .inl (commandEffect_cap_mem hc).2
  | _ => exact .inl rfl

/-- Settles O35, register by register, from the effect of the event served. -/
theorem onlyTheseEventsChangeState : Obligations.OnlyTheseEventsChangeState := by
  intro s t e rest hp hstep
  have heff : EventEffect e (s.taken rest) t := serve_cases ((step_pending hp).symm.trans hstep)
  refine ⟨(eventEffect_cap heff).trans (taken_cap s rest), fun hne => ?_, fun hne => ?_, fun hne => ?_⟩
  · refine (eventEffect_status_digest heff).resolve_left ?_
    rintro ⟨hstatus, hdigest⟩
    exact hne.elim (· hstatus) (· hdigest)
  · exact (eventEffect_len heff).resolve_left hne
  · exact (eventEffect_mem heff).resolve_left hne

/-! ### The engine registers are not observed (10_state.md R43, R46) -/

/-- `s` with other contents in the engine registers. -/
def State.withEngines (s : State) (e32 : EngineRegs 32) (e64 : EngineRegs 64) : State :=
  { s with engine32 := e32, engine64 := e64 }

/-- Two steps go on, to states that differ in the engine registers at most. -/
def AgreeButEngines (o o' : Host.Outcome State Fault Refusal) : Prop :=
  ∃ t e32 e64, o = .next t ∧ o' = .next (t.withEngines e32 e64)

section
variable (s : State) (e32 : EngineRegs 32) (e64 : EngineRegs 64)

theorem execHash_withEngines (v : Variant) (hash : List Byte → List Byte) :
    AgreeButEngines (execHash v hash s) (execHash v hash (s.withEngines e32 e64)) := by
  rcases execHash_cases v hash s with ⟨hc, h⟩ | ⟨hc, hm, h⟩ | ⟨m, hc, hm, h⟩
  · exact ⟨_, e32, e64, h, execHash_capacity v hash (s.withEngines e32 e64) hc⟩
  · exact ⟨_, Config.freeEngine32 s.draws, Config.freeEngine64 s.draws, h, execHash_unwritten v hash (s.withEngines e32 e64) hc hm⟩
  · exact ⟨_, Config.freeEngine32 s.draws, Config.freeEngine64 s.draws, h, execHash_digest v hash (s.withEngines e32 e64) m hc hm⟩

theorem exec_withEngines (i : Instr) : AgreeButEngines (exec i s) (exec i (s.withEngines e32 e64)) := by
  rcases instr_cases i with rfl | rfl | ⟨v, rfl⟩
  · exact ⟨s, e32, e64, rfl, rfl⟩
  · exact ⟨s.clearRegs, e32, e64, rfl, rfl⟩
  · rw [exec_hash, exec_hash]
    exact execHash_withEngines s e32 e64 v (hashOf v)

theorem performCommand_withEngines (c : Word32) : AgreeButEngines (performCommand c s) (performCommand c (s.withEngines e32 e64)) := by
  rcases hd : decode c with i | _ | _
  · rw [performCommand_instr s hd, performCommand_instr _ hd]
    exact exec_withEngines s e32 e64 i
  · exact ⟨_, e32, e64, performCommand_illegal s hd, performCommand_illegal _ hd⟩
  · exact ⟨_, e32, e64, performCommand_badVariant s hd, performCommand_badVariant _ hd⟩

theorem readTarget_withEngines (tgt : BusTarget) : readTarget tgt (s.withEngines e32 e64) = (readTarget tgt s).withEngines e32 e64 := by
  cases tgt with
  | msg j =>
    have hmem : (s.withEngines e32 e64).mem = s.mem := rfl
    rcases hr : readMsgWord s.mem j with _ | v <;> simp only [readTarget, hmem, hr] <;> rfl
  | _ => rfl

theorem writeTarget_withEngines (tgt : BusTarget) (v : Word32) : AgreeButEngines (writeTarget tgt v s) (writeTarget tgt v (s.withEngines e32 e64)) := by
  cases tgt with
  | cmd => exact performCommand_withEngines s e32 e64 v
  | _ => exact ⟨_, e32, e64, rfl, rfl⟩

theorem answer_agreeButEngines {o o' : Host.Outcome State Fault Refusal} (r : Reply) (h : AgreeButEngines o o') :
    AgreeButEngines (answer r o) (answer r o') := by
  obtain ⟨t, f32, f64, rfl, rfl⟩ := h
  exact ⟨t.setReply r, f32, f64, rfl, rfl⟩

theorem transact_withEngines (tr : Transaction) : AgreeButEngines (transact tr s) (transact tr (s.withEngines e32 e64)) := by
  have hcap : (s.withEngines e32 e64).cap = s.cap := rfl
  cases tr with
  | read a =>
    rcases ht : busTarget s.cap.toNat a with _ | tgt <;> simp only [transact, hcap, ht]
    · exact ⟨_, e32, e64, rfl, rfl⟩
    · exact ⟨_, e32, e64, rfl, congrArg _ (readTarget_withEngines s e32 e64 tgt)⟩
  | write a v =>
    rcases ht : busTarget s.cap.toNat a with _ | tgt <;> simp only [transact, hcap, ht]
    · exact ⟨_, e32, e64, rfl, rfl⟩
    · exact answer_agreeButEngines okWrite (writeTarget_withEngines s e32 e64 tgt v)

theorem serve_withEngines (e : HostEvent) : AgreeButEngines (serve e s) (serve e (s.withEngines e32 e64)) := by
  cases e with
  | reset => exact ⟨s.resetEvent, s.resetEvent.engine32, s.resetEvent.engine64, rfl, rfl⟩
  | bus tr => exact transact_withEngines s e32 e64 tr

theorem step_withEngines : AgreeButEngines (step s) (step (s.withEngines e32 e64)) := by
  rcases hp : s.pending with _ | ⟨e, rest⟩
  · exact ⟨s, e32, e64, step_idle hp, step_idle hp⟩
  · rw [step_pending hp, step_pending (s := s.withEngines e32 e64) hp]
    exact serve_withEngines (s.taken rest) e32 e64 e

end

/-- Settles O36: each level of the step, from the commands to the events, gives the same state but for the engine registers. -/
theorem engineRegistersNeverObserved : Obligations.EngineRegistersNeverObserved := by
  intro s t t' e32 e64 hs hs'
  obtain ⟨u, f32, f64, hu, hu'⟩ := step_withEngines s e32 e64
  obtain rfl : u = t := Host.Outcome.next.inj (hu.symm.trans hs)
  obtain rfl : u.withEngines f32 f64 = t' := Host.Outcome.next.inj (hu'.symm.trans hs')
  rfl

end Sys2Proof.Machine

namespace Sys2Proof.Machine

/-! ### The address map over whole ranges, and register by register (10_state.md R30; 20_memory.md R72, R75) -/

/-- The map has nothing exactly at the addresses that R72 lists: the end of the window lies above the registers, whatever the capacity. -/
theorem busTarget_eq_none_iff_unmapped {cap : Nat} {a : Addr} :
    busTarget cap a = none ↔
      a.toNat % 4 ≠ 0 ∨ (0x10 ≤ a.toNat ∧ a.toNat < 0x40) ∨ (0x80 ≤ a.toNat ∧ a.toNat < 0x1000) ∨ 0x1000 + cap ≤ a.toNat := by
  rw [busTarget_eq_none]
  omega

@[simp] theorem busTarget_cmd (cap : Nat) : busTarget cap 0x0000#16 = some .cmd := rfl
@[simp] theorem busTarget_status (cap : Nat) : busTarget cap 0x0004#16 = some .status := rfl
@[simp] theorem busTarget_len (cap : Nat) : busTarget cap 0x0008#16 = some .len := rfl
@[simp] theorem busTarget_cap (cap : Nat) : busTarget cap 0x000C#16 = some .cap := rfl

/-! ### What a read and a write answer (20_memory.md R71, R75, R78) -/

/-- A read that is served answers OK with some data. -/
theorem readTarget_reply (tgt : BusTarget) (s : State) : ∃ d, (readTarget tgt s).reply = some (okRead d) := by
  cases tgt with
  | msg j =>
    rcases hr : readMsgWord s.mem j with _ | v <;> simp only [readTarget, hr] <;> exact ⟨_, rfl⟩
  | _ => exact ⟨_, rfl⟩

/-- A write that is served answers OK, a command that ends in a command error among them (R300). -/
theorem answer_writeTarget_reply (tgt : BusTarget) (v : Word32) (s : State) :
    ∃ t, answer okWrite (writeTarget tgt v s) = .next t ∧ t.reply = some okWrite := by
  obtain ⟨u, hu⟩ := writeTarget_total tgt v s
  exact ⟨u.setReply okWrite, by rw [hu]; rfl, rfl⟩

/-- A read leaves all but the answer and the count of draws. -/
theorem step_read_frame {s t : State} {a : Addr} (h : step (s.asked (.bus (.read a))) = .next t) : t = { s with reply := t.reply, draws := t.draws } := by
  cases serve_cases ((step_asked s _).symm.trans h) with
  | answered => rfl
  | drawn => rfl

/-- The write of LEN (R75). -/
theorem step_lenWrite (s : State) (v : Word32) : step (s.asked (.bus (.write 0x0008#16 v))) = .next ((s.setLen v).setReply okWrite) :=
  step_write_some (busTarget_len _)

/-- What the write of LEN leads to. -/
theorem eq_of_step_lenWrite {s t : State} {v : Word32} (h : step (s.asked (.bus (.write 0x0008#16 v))) = .next t) : t = (s.setLen v).setReply okWrite :=
  Host.Outcome.next.inj (h.symm.trans (step_lenWrite s v))

/-- What the write of message word j leads to. -/
theorem eq_of_step_msgWrite {s t : State} {j : Nat} {v : Word32} (h : step (s.asked (.bus (.write (BitVec.ofNat 16 (0x1000 + 4 * j)) v))) = .next t)
    (hc : s.cap.toNat ≤ 61440) (hj : 4 * j < s.cap.toNat) : t = (s.writeMsgWord j v).setReply okWrite :=
  Host.Outcome.next.inj (h.symm.trans (step_msgWrite v hc hj))

/-- The read of a message word whose value is known (R74). -/
theorem step_msgRead_word {s : State} {j : Nat} {v : Word32} (hc : s.cap.toNat ≤ 61440) (hj : 4 * j < s.cap.toNat) (hv : readMsgWord s.mem j = some v) :
    step (s.asked (.bus (.read (BitVec.ofNat 16 (0x1000 + 4 * j))))) = .next (s.setReply (okRead v)) := by
  rw [step_read_some (busTarget_msg hc j hj), readTarget, hv]

/-- The read of a message word never written draws a free value (R40, R74). -/
theorem step_msgRead_free {s : State} {j : Nat} (hc : s.cap.toNat ≤ 61440) (hj : 4 * j < s.cap.toNat) (hw : written s.mem j = false) :
    step (s.asked (.bus (.read (BitVec.ofNat 16 (0x1000 + 4 * j))))) = .next (s.drawn.setReply (okRead (Config.freeReadWord s.draws))) := by
  rw [step_read_some (busTarget_msg hc j hj), readTarget, (readMsgWord_eq_none s.mem j).mpr hw]

/-! ### The buffer after the write of a message word (20_memory.md R73, R78) -/

/-- Byte i of the word written is byte i of its big-endian form. -/
theorem readByte_memWrite_word (m : Memory) (j : Nat) (v : Word32) {i : Nat} (hi : i < 4) :
    readByte (memWrite m (4 * j) 4 v.toNat) (4 * j + i) = (be 4 v.toNat)[i]? := by
  rw [readByte_memWrite, if_pos (by omega), Nat.add_sub_cancel_left]

/-- Every byte outside the word written is as before. -/
theorem readByte_memWrite_other (m : Memory) {j k : Nat} (v : Word32) (hk : k < 4 * j ∨ 4 * j + 4 ≤ k) :
    readByte (memWrite m (4 * j) 4 v.toNat) k = readByte m k := by
  rw [readByte_memWrite, if_neg (by omega)]

/-- Writing the same bytes twice is writing them once: both memories are canonical and read alike. -/
theorem memWrite_memWrite_self {m : Memory} (h : Memory.wf m = true) (a n v : Nat) : memWrite (memWrite m a n v) a n v = memWrite m a n v := by
  have hw := memWrite_wf m a n v h
  refine memory_ext (memWrite_wf _ a n v hw) hw fun k => ?_
  rw [readByte_memWrite]
  split
  · rw [readByte_memWrite, if_pos ‹_›]
  · rfl

theorem writeMsgWord_setReply_writeMsgWord_self {s : State} (h : Memory.wf s.mem = true) (j : Nat) (v : Word32) (r : Reply) :
    ((s.writeMsgWord j v).setReply r).writeMsgWord j v = (s.writeMsgWord j v).setReply r :=
  congrArg (fun m => { (s.writeMsgWord j v).setReply r with mem := m }) (memWrite_memWrite_self h (4 * j) 4 v.toNat)

/-! ### The statements on the host bus -/

/-- Settles O21: the addresses named are those at which the map has nothing. -/
theorem busErrorExactlyWhereUnmapped : Obligations.BusErrorExactlyWhereUnmapped := by
  intro s a _
  rw [← busTarget_eq_none_iff_unmapped]
  refine ⟨fun hnone => ⟨step_read_none hnone, fun v => step_write_none hnone⟩, fun hsome => ?_⟩
  obtain ⟨tgt, htgt⟩ := Option.ne_none_iff_exists'.mp hsome
  obtain ⟨d, hd⟩ := readTarget_reply tgt s
  refine ⟨⟨readTarget tgt s, d, step_read_some htgt, hd⟩, fun v => ?_⟩
  rw [step_write_some htgt]
  exact answer_writeTarget_reply tgt v s

/-- Settles O22: the read or the write of what the map has at each register's address. -/
theorem registerAccessOutcomes : Obligations.RegisterAccessOutcomes := fun s =>
  ⟨step_read_some (busTarget_status _), step_read_some (busTarget_len _), step_lenWrite s, step_read_some (busTarget_cap _),
    fun i => step_read_some (busTarget_digest _ i), step_read_some (busTarget_cmd _), fun _ => step_write_some (busTarget_cmd _),
    fun _ => step_write_some (busTarget_status _), fun _ => step_write_some (busTarget_cap _), fun i _ => step_write_some (busTarget_digest _ i)⟩

/-- Settles O23: the four bytes are those of the big-endian form, and the rest of the buffer is the frame of the write. -/
theorem msgWriteStoresBigEndian : Obligations.MsgWriteStoresBigEndian := by
  rintro s j v ⟨-, hc, -⟩ hj
  have hbyte : ∀ i, i < 4 → readByte (s.writeMsgWord j v).mem (4 * j + i)
      = [v.extractLsb' 24 8, v.extractLsb' 16 8, v.extractLsb' 8 8, v.extractLsb' 0 8][i]? := fun i hi =>
    (readByte_memWrite_word s.mem j v hi).trans (by rw [be_four])
  have hflag : ∀ j', written (s.writeMsgWord j v).mem j' = (decide (j' = j) || written s.mem j') := fun j' => written_memWrite s.mem j j' v.toNat
  exact ⟨_, step_msgWrite v hc hj, rfl, hbyte 0 (by omega), hbyte 1 (by omega), hbyte 2 (by omega), hbyte 3 (by omega),
    (hflag j).trans (by simp), fun k hk => readByte_memWrite_other s.mem v hk, fun j' hne => (hflag j').trans (by simp [hne]), rfl⟩

/-- Settles O24, by whether the word was written. -/
theorem msgReadReturnsWordOrFreeValue : Obligations.MsgReadReturnsWordOrFreeValue := by
  rintro s j ⟨-, hc, -⟩ hj
  exact ⟨fun b0 b1 b2 b3 h0 h1 h2 h3 => step_msgRead_word hc hj (readMsgWord_of_bytes h0 h1 h2 h3), step_msgRead_free hc hj⟩

/-- Settles O25: the later write leaves the word that the first one stored. -/
theorem msgReadReturnsLastWrite : Obligations.MsgReadReturnsLastWrite := by
  rintro s t u j j' v v' ⟨-, hc, -⟩ hj hj' hne ht hu
  obtain rfl := eq_of_step_msgWrite ht hc hj
  obtain rfl := eq_of_step_msgWrite hu hc hj'
  refine step_msgRead_word hc hj ?_
  simp only [setReply_mem, writeMsgWord_mem]
  rw [readMsgWord_memWrite, if_neg hne.symm, readMsgWord_memWrite, if_pos rfl]

/-- Settles O26: the frame of a read, and the second write stores what the first one stored. -/
theorem readsChangeNothingWritesIdempotent : Obligations.ReadsChangeNothingWritesIdempotent := by
  refine ⟨fun _ _ _ => step_read_frame, fun s t u v ht hu => ?_, fun s t u j v hcap hj hwf ht hu => ?_⟩
  · obtain rfl := eq_of_step_lenWrite ht
    exact eq_of_step_lenWrite hu
  · obtain ⟨-, hc, -⟩ := hcap
    obtain rfl := eq_of_step_msgWrite ht hc hj
    rw [eq_of_step_msgWrite hu hc hj, writeMsgWord_setReply_writeMsgWord_self hwf]
    rfl

end Sys2Proof.Machine

namespace Sys2Proof

/-! ### The decoder and the encoder (30_encoding.md R104, R109) -/

theorem decode_encode (i : Instr) : decode (encode i) = .instr i := by
  cases i <;> decide

/-- Exactly the encoder's word decodes to a command. -/
theorem decode_eq_instr_iff (c : Word32) (i : Instr) : decode c = .instr i ↔ c = encode i := by
  refine ⟨eq_encode_of_decode, ?_⟩
  rintro rfl
  exact decode_encode i

/-- The table numbers the bits of a command word as the decoder does (R109). -/
theorem decodeTableWord_toNat {c : Word32} {i : Instr} (h : decode c = .instr i) : decodeTableWord 32 c.toNat = some i := by
  have hword : BitVec.ofNat 32 (c.toNat % 2 ^ 32) = c := by rw [Nat.mod_eq_of_lt c.isLt, BitVec.ofNat_toNat, BitVec.setWidth_eq]
  rw [decodeTableWord, if_pos le_rfl, hword, h]

theorem decodeTableWord_encode (i : Instr) : decodeTableWord 32 (encode i).toNat = some i :=
  decodeTableWord_toNat (decode_encode i)

/-- Settles O2: `decode_encode` one way, and the other way no second word decodes to a command. -/
theorem decodeAndEncodeAgree : Obligations.DecodeAndEncodeAgree :=
  ⟨fun i _ => ⟨decode_encode i, decodeTableWord_encode i⟩, fun _ _ h => (eq_encode_of_decode h).symm⟩

/-- A BadVariant is a HASH with VAR 5, 6 or 7 and the reserved bits zero (R102, R104). -/
theorem decode_eq_badVariant_iff (c : Word32) : decode c = .badVariant ↔ c = 0x00000501#32 ∨ c = 0x00000601#32 ∨ c = 0x00000701#32 := by
  rw [decode_eq]
  simp only [BitVec.toNat_eq, BitVec.toNat_ofNat]
  split_ifs <;> simp only [false_iff, true_iff] <;> omega

/-- The ten words that are not Illegal: the seven commands and the three reserved variants (R104). -/
def namedWords : List Word32 :=
  [0x00000000#32, 0x00000002#32, 0x00000001#32, 0x00000101#32, 0x00000201#32, 0x00000301#32, 0x00000401#32,
   0x00000501#32, 0x00000601#32, 0x00000701#32]

theorem decode_ne_illegal_of_mem_namedWords {c : Word32} (h : c ∈ namedWords) : decode c ≠ .illegal := by
  fin_cases h <;> decide

theorem encode_mem_namedWords (i : Instr) : encode i ∈ namedWords := by
  cases i <;> decide

theorem mem_namedWords_of_badVariant {c : Word32} (h : decode c = .badVariant) : c ∈ namedWords := by
  rcases (decode_eq_badVariant_iff c).mp h with rfl | rfl | rfl <;> decide

theorem decode_eq_illegal_iff (c : Word32) : decode c = .illegal ↔ c ∉ namedWords := by
  refine ⟨fun h hmem => decode_ne_illegal_of_mem_namedWords hmem h, fun hnot => ?_⟩
  cases hd : decode c with
  | illegal => rfl
  | instr i =>
    obtain rfl := eq_encode_of_decode hd
    exact absurd (encode_mem_namedWords i) hnot
  | badVariant => exact absurd (mem_namedWords_of_badVariant hd) hnot

/-- Settles O1: a command has the encoder's word alone, and what is neither a command nor a BadVariant is Illegal. -/
theorem decodeClassifiesEveryWord : Obligations.DecodeClassifiesEveryWord := fun c =>
  ⟨decode_eq_instr_iff c .nop, decode_eq_instr_iff c .clear, decode_eq_instr_iff c .hashSha1, decode_eq_instr_iff c .hashSha224,
    decode_eq_instr_iff c .hashSha256, decode_eq_instr_iff c .hashSha384, decode_eq_instr_iff c .hashSha512,
    decode_eq_badVariant_iff c, decode_eq_illegal_iff c⟩

/-- Settles O3: each match value is the encoder's word of its command. -/
theorem tableWordsDecode : Obligations.TableWordsDecode :=
  ⟨decodeTableWord_encode .nop, decodeTableWord_encode .clear, decodeTableWord_encode .hashSha1, decodeTableWord_encode .hashSha224,
    decodeTableWord_encode .hashSha256, decodeTableWord_encode .hashSha384, decodeTableWord_encode .hashSha512⟩

end Sys2Proof

namespace Sys2Proof.Machine

/-! ### The buffer after LOADMSG (20_memory.md R73; 30_encoding.md R108) -/

/-- The message words `vs`, stored from word 0 on (R108). -/
def State.storeWords (s : State) (vs : List Word32) : State :=
  vs.zipIdx.foldl (fun st vj => st.writeMsgWord vj.2 vj.1) s

/-- The bytes of the words stored stand in the buffer in order. -/
theorem readByte_storeWords (s : State) (vs : List Word32) {k : Nat} (hk : k < 4 * vs.length) :
    readByte (s.storeWords vs).mem k = (serialize32 vs)[k]? := by
  rw [State.storeWords, readByte_foldl_writeMsgWord, if_pos (by omega)]
  rfl

theorem written_storeWords (s : State) (vs : List Word32) {j : Nat} (hj : j < vs.length) : written (s.storeWords vs).mem j = true := by
  rw [written_iff]
  intro i hi
  have hk : 4 * j + i < 4 * vs.length := by omega
  rw [readByte_storeWords s vs hk, List.getElem?_eq_getElem (by rwa [serialize32_length])]
  rfl

/-- The zero bytes that fill up the last word come after the message. -/
theorem serialize32_loadWords_getElem? (m : List Byte) {k : Nat} (hk : k < m.length) : (serialize32 (loadWords m))[k]? = m[k]? := by
  obtain ⟨p, hp⟩ := loadWords_bytes m
  rw [hp, List.getElem?_append_left hk]

/-- Settles O27: each byte consumed stands in a word that was stored. -/
theorem loadedMessageIsOperand : Obligations.LoadedMessageIsOperand := by
  intro s m
  change messageOperand (s.storeWords (loadWords m)).mem m.length = some m
  rw [messageOperand_eq_some]
  refine ⟨rfl, fun k hk => ?_⟩
  have hword : k / 4 < (loadWords m).length := by rw [loadWords_length]; omega
  refine ⟨written_storeWords s _ hword, ?_⟩
  rw [readByte_storeWords s _ (by omega), serialize32_loadWords_getElem? m hk]

end Sys2Proof.Machine

namespace Sys2Proof.Machine

/-! ### Bit primitives (40_primitives.md) -/

/-- Settles O37: the two halves change places, and w − (w − n) is n. -/
theorem rotlIsRotrOfComplement : Obligations.RotlIsRotrOfComplement := by
  intro w x n h
  have hamount : w - (w - n) = n := Nat.sub_sub_self h.2.le
  rw [rotl, rotr, hamount, BitVec.or_comm]

theorem rotate_amount_illegal_iff {w n : Nat} : ¬(1 ≤ n ∧ n < w) ↔ n = 0 ∨ w ≤ n := by
  omega

theorem rotr?_eq_none_iff {w : Nat} (x : BitVec w) (n : Nat) : rotr? x n = none ↔ n = 0 ∨ w ≤ n := by
  rw [← rotate_amount_illegal_iff, rotr?, dite_eq_right_iff]
  simp

theorem rotl?_eq_none_iff {w : Nat} (x : BitVec w) (n : Nat) : rotl? x n = none ↔ n = 0 ∨ w ≤ n := by
  rw [← rotate_amount_illegal_iff, rotl?, dite_eq_right_iff]
  simp

/-- Settles O38: each general rotate is refused exactly where its amount is not legal. -/
theorem rotateAmountsRefused : Obligations.RotateAmountsRefused := fun _ x n =>
  ⟨rotr?_eq_none_iff x n, rotl?_eq_none_iff x n⟩

section
variable {w : Nat} (x y z : BitVec w) {i : Nat}

theorem ch_getLsbD (hi : i < w) : (ch x y z).getLsbD i = if x.getLsbD i then y.getLsbD i else z.getLsbD i := by
  rw [ch, BitVec.getLsbD_xor, BitVec.getLsbD_and, BitVec.getLsbD_and, BitVec.getLsbD_not, decide_eq_true hi]
  cases x.getLsbD i with
  | true => simp
  | false => simp

/-- Where x and y agree, theirs is the value of at least two; where they differ, z has the value of one of them. -/
theorem maj_getLsbD : (maj x y z).getLsbD i = if x.getLsbD i = y.getLsbD i then x.getLsbD i else z.getLsbD i := by
  simp only [maj, BitVec.getLsbD_xor, BitVec.getLsbD_and]
  by_cases hxy : x.getLsbD i = y.getLsbD i
  · simp [hxy]
  · rw [if_neg hxy, Bool.eq_not_of_ne hxy]
    cases y.getLsbD i with
    | true => simp
    | false => simp

end

/-- Settles O39. -/
theorem chAndMajBitByBit : Obligations.ChAndMajBitByBit := fun _ x y z _ hi =>
  ⟨ch_getLsbD x y z hi, maj_getLsbD x y z⟩

/-- F chooses by three comparisons, with 20, 40 and 60: where none of them changes, neither does F. -/
theorem fSel_eq_of_same_band {t t' : Fin 80} (h20 : t'.val < 20 ↔ t.val < 20) (h40 : t'.val < 40 ↔ t.val < 40)
    (h60 : t'.val < 60 ↔ t.val < 60) (x y z : Word32) : fSel x y z t' = fSel x y z t := by
  simp only [fSel, h20, h40, h60]

/-- On the words 0, 1, 0 the bands of Ch and Maj give 0 and those of Parity give 1, so that neighbouring bands differ there. -/
theorem fSel_zero_one_zero (t : Fin 80) :
    fSel 0 1 0 t = if t.val < 20 then 0 else if t.val < 40 then 1 else if t.val < 60 then 0 else 1 := by
  have hch : ch (0 : Word32) 1 0 = 0 := by decide
  have hmaj : maj (0 : Word32) 1 0 = 0 := by decide
  have hparity : parity 0 1 0 = 1 := by decide
  rw [fSel, hch, hmaj, hparity]

/-- Settles O40: away from the edges both indices are in one band, and at each edge the words 0, 1, 0 tell the two functions apart. -/
theorem selectorChangesAtBandEdges : Obligations.SelectorChangesAtBandEdges := by
  intro t t' hsucc
  constructor
  · intro hsame hedge
    have hprobe := hsame 0 1 0
    rw [fSel_zero_one_zero, fSel_zero_one_zero, hsucc] at hprobe
    simp only [List.mem_cons, List.not_mem_nil, or_false, hsucc, Nat.reduceEqDiff] at hedge
    obtain ht | ht | ht := hedge <;> simp [ht] at hprobe
  · intro hedge
    simp only [List.mem_cons, List.not_mem_nil, or_false, not_or] at hedge
    obtain ⟨h20, h40, h60⟩ := hedge
    exact fSel_eq_of_same_band (by omega) (by omega) (by omega)

end Sys2Proof.Machine

namespace Sys2Proof.Machine

/-! ### The number of zero bits (41_scheduler.md R182) -/

/-- The K that fit the block are one residue class modulo its length, and `zeroBits` is the residue. -/
theorem zeroBits_fits_iff {bb lf L K : Nat} (hbb : 0 < bb) (hlf : lf ≤ bb) :
    (L + 1 + K) % bb = (bb - lf) % bb ↔ K % bb = zeroBits bb lf L := by
  have hnonneg : 0 ≤ ((bb : Int) - lf - (L + 1)) % bb := Int.emod_nonneg _ (by omega)
  have hdiff : (L + 1 + K : Int) - (bb - lf) = K - (bb - lf - (L + 1)) := by ring
  calc (L + 1 + K) % bb = (bb - lf) % bb
      ↔ (L + 1 + K : Int) % bb = (bb - lf) % bb := by rw [← Nat.cast_sub hlf]; norm_cast
    _ ↔ (K : Int) % bb = (bb - lf - (L + 1)) % bb := by
      rw [Int.emod_eq_emod_iff_emod_sub_eq_zero, hdiff, ← Int.emod_eq_emod_iff_emod_sub_eq_zero]
    _ ↔ K % bb = zeroBits bb lf L := by rw [zeroBits]; omega

theorem zeroBits_lt {bb : Nat} (hbb : 0 < bb) (lf L : Nat) : zeroBits bb lf L < bb := by
  have hlt : ((bb : Int) - lf - (L + 1)) % bb < bb := Int.emod_lt_of_pos _ (by omega)
  rw [zeroBits]
  omega

/-- Settles O41: a residue below the block's length is its own residue, and the least of its class. -/
theorem zeroBitCountIsLeast : Obligations.ZeroBitCountIsLeast := by
  intro bb lf L hbb hlf
  have hlt := zeroBits_lt hbb lf L
  refine ⟨(zeroBits_fits_iff hbb hlf).mpr (Nat.mod_eq_of_lt hlt), hlt, fun K hK => ?_⟩
  rw [← (zeroBits_fits_iff hbb hlf).mp hK]
  exact Nat.mod_le K bb

/-! ### What both byte-level paddings are (41_scheduler.md R184) -/

/-- A message with the byte 0x80, `z` zero bytes and its bit length on `k` bytes: Pad32 and Pad64, before their numbers are chosen (R184). -/
def padBytes (z k : Nat) (m : List Byte) : List Byte :=
  m ++ [0x80#8] ++ List.replicate z 0#8 ++ be k (8 * m.length)

theorem pad32_eq (m : List Byte) : pad32 m = padBytes (zeroBytes32 m.length) 8 m := rfl

theorem pad64_eq (m : List Byte) : pad64 m = padBytes (zeroBytes64 m.length) 16 m := rfl

theorem padBytes_drop (z k : Nat) (m : List Byte) : (padBytes z k m).drop ((padBytes z k m).length - k) = be k (8 * m.length) := by
  rw [padBytes, List.length_append, be_length, Nat.add_sub_cancel, List.drop_left]

theorem padBytes_take (z k : Nat) (m : List Byte) : (padBytes z k m).take m.length = m := by
  rw [padBytes, List.append_assoc, List.append_assoc, List.take_left]

theorem padBytes_getElem?_length (z k : Nat) (m : List Byte) : (padBytes z k m)[m.length]? = some 0x80#8 := by
  simp [padBytes]

/-- The byte 0x80 is the 1 bit and the first seven of the zero bits. -/
theorem byteBits_0x80 : byteBits 0x80#8 = [true] ++ List.replicate 7 false := by decide

/-- Byte padding is bit padding where the numbers of zeros agree: 0x80 brings seven zero bits, each zero byte eight. -/
theorem bytesBits_padBytes {bb z k : Nat} {m : List Byte} (hz : zeroBits bb (8 * k) (8 * m.length) = 7 + 8 * z) :
    bytesBits (padBytes z k m) = padBits bb (8 * k) (bytesBits m) := by
  have hone : bytesBits [0x80#8] = [true] ++ List.replicate 7 false := byteBits_0x80
  rw [padBytes, bytesBits_append, bytesBits_append, bytesBits_append, hone, bytesBits_zeros, bytesBits_be, padBits, bytesBits_length, hz,
    List.replicate_add]
  simp only [List.append_assoc]

theorem zeroBits_512 (n : Nat) : zeroBits 512 64 (8 * n) = 7 + 8 * zeroBytes32 n := by
  rw [zeroBits, zeroBytes32]
  omega

theorem zeroBits_1024 (n : Nat) : zeroBits 1024 128 (8 * n) = 7 + 8 * zeroBytes64 n := by
  rw [zeroBits, zeroBytes64]
  omega

/-- Settles O42: both are `bytesBits_padBytes`, with the numbers of zeros of each family. -/
theorem bytePaddingIsBitPadding : Obligations.BytePaddingIsBitPadding := fun m =>
  ⟨bytesBits_padBytes (k := 8) (zeroBits_512 m.length), bytesBits_padBytes (k := 16) (zeroBits_1024 m.length)⟩

/-- The trailing length field gives back a bit length that fits it (R186). -/
theorem beVal_padBytes_drop {k : Nat} (z : Nat) {m : List Byte} (hfit : 8 * m.length < 256 ^ k) :
    beVal ((padBytes z k m).drop ((padBytes z k m).length - k)) = 8 * m.length := by
  rw [padBytes_drop, beVal_be, Nat.mod_eq_of_lt hfit]

/-- Settles O43. -/
theorem padRecoversLength : Obligations.PadRecoversLength := fun m =>
  ⟨fun hfit => ⟨by rw [pad32_length]; omega, beVal_padBytes_drop _ (by omega), padBytes_take _ _ m, padBytes_getElem?_length _ _ m⟩,
    fun hfit => ⟨by rw [pad64_length]; omega, beVal_padBytes_drop _ (by omega), padBytes_take _ _ m, padBytes_getElem?_length _ _ m⟩⟩

/-! ### Parsing whole blocks (41_scheduler.md R187) -/

section
variable {p : List Byte} {N : Nat}

theorem words32_length_of_blocks (h : p.length = 64 * N) : (words32 p).length = 16 * N := by
  rw [words32_length]
  omega

theorem words64_length_of_blocks (h : p.length = 128 * N) : (words64 p).length = 16 * N := by
  rw [words64_length]
  omega

theorem toBlocks_length_of_blocks {w : Nat} {ws : List (BitVec w)} (h : ws.length = 16 * N) : (toBlocks ws).length = N := by
  rw [toBlocks_length ws (by omega), h, Nat.mul_div_cancel_left N (by omega)]

theorem parse32_length (h : p.length = 64 * N) : (parse32 p).length = N :=
  toBlocks_length_of_blocks (words32_length_of_blocks h)

theorem parse64_length (h : p.length = 128 * N) : (parse64 p).length = N :=
  toBlocks_length_of_blocks (words64_length_of_blocks h)

theorem parse32_word (h : p.length = 64 * N) {i : Nat} (j : Fin 16) (hi : i < N) :
    ((parse32 p)[i]?).map (fun b => b[j]) = some (BitVec.ofNat 32 (beVal ((p.drop ((16 * i + j.val) * 4)).take 4))) := by
  have hwords := words32_length_of_blocks h
  rw [parse32, toBlocks_getElem? _ i j (by omega), words32_getElem? p _ (by omega), Nat.mul_comm 4]

theorem parse64_word (h : p.length = 128 * N) {i : Nat} (j : Fin 16) (hi : i < N) :
    ((parse64 p)[i]?).map (fun b => b[j]) = some (BitVec.ofNat 64 (beVal ((p.drop ((16 * i + j.val) * 8)).take 8))) := by
  have hwords := words64_length_of_blocks h
  rw [parse64, toBlocks_getElem? _ i j (by omega), words64_getElem? p _ (by omega), Nat.mul_comm 8]

/-- The words of the blocks, written big-endian in order, are the bytes parsed (R188). -/
theorem serialize32_parse32 (h : p.length = 64 * N) : serialize32 ((parse32 p).flatMap fun b => b.toList) = p := by
  have hwords := words32_length_of_blocks h
  rw [parse32, toBlocks_flatMap _ (by omega), serialize32_words32 p (by omega)]

/-- The words of the blocks, written big-endian in order, are the bytes parsed (R188). -/
theorem serialize64_parse64 (h : p.length = 128 * N) : serialize64 ((parse64 p).flatMap fun b => b.toList) = p := by
  have hwords := words64_length_of_blocks h
  rw [parse64, toBlocks_flatMap _ (by omega), serialize64_words64 p (by omega)]

end

/-- Settles O44. -/
theorem blockCountOfPaddedMessage : Obligations.BlockCountOfPaddedMessage := fun m =>
  ⟨pad32_length m, parse32_length (pad32_length m), pad64_length m, parse64_length (pad64_length m)⟩

/-- Settles O45. -/
theorem parseReadsBigEndianWords : Obligations.ParseReadsBigEndianWords :=
  ⟨fun _ _ h => ⟨parse32_length h, fun _ j hi => parse32_word h j hi⟩, fun _ _ h => ⟨parse64_length h, fun _ j hi => parse64_word h j hi⟩⟩

/-- Settles O46: a padded message is whole blocks. -/
theorem parseRoundTrip : Obligations.ParseRoundTrip := fun m =>
  ⟨serialize32_parse32 (pad32_length m), serialize64_parse64 (pad64_length m)⟩

end Sys2Proof.Machine

namespace Sys2Proof.Machine

/-! ### Schedules and rounds (42_engine32.md R210, R211, R216; 43_engine64.md R263) -/

/-- Settles O47: the entries that the recurrence reads are the four that R211 names. -/
theorem sha1ScheduleRecurrence : Obligations.Sha1ScheduleRecurrence := by
  refine fun b => ⟨scheduleOf_length sha1Next 64 b, scheduleOf_block sha1Next 64 b, fun t hfirst hlast => ?_⟩
  obtain ⟨q, hentry, hback⟩ := scheduleOf_next sha1Next 64 b t hfirst hlast
  simp (disch := omega) only [sha1Schedule, hentry, hback, sha1Next]

/-- Settles O48: the entries that the recurrence reads are the four that R216 names. -/
theorem sha256ScheduleRecurrence : Obligations.Sha256ScheduleRecurrence := by
  refine fun b => ⟨scheduleOf_length sha256Next 48 b, scheduleOf_block sha256Next 48 b, fun t hfirst hlast => ?_⟩
  obtain ⟨q, hentry, hback⟩ := scheduleOf_next sha256Next 48 b t hfirst hlast
  simp (disch := omega) only [sha256Schedule, hentry, hback, sha256Next]

/-- A fold in step over the indices below `n` and a list of that length is a fold over the indices. -/
theorem foldl_zip_finRange {α γ : Type} {n : Nat} (f : Fin n → γ → α → γ) (e : α) (ws : List α) (h : ws.length = n) (v : γ) :
    ((List.finRange n).zip ws).foldl (fun v tw => f tw.1 v tw.2) v = (List.finRange n).foldl (fun v t => f t v (ws.getD t.val e)) v := by
  have hzip : (List.finRange n).zip ws = (List.finRange n).map fun t => (t, ws.getD t.val e) := by
    apply List.ext_getElem
    · simp [h]
    · intro i hi _
      have hw : i < ws.length := by simp at hi; omega
      simp [hw]
  rw [hzip, List.foldl_map]

/-- Settles O50: each engine's rounds are a fold in step over its constants (for SHA-1 the round indices, which fix them) and the schedule. -/
theorem roundsConsumeScheduleInOrder : Obligations.RoundsConsumeScheduleInOrder :=
  ⟨fun w v hlen => foldl_zip_finRange sha1Round 0 w hlen v,
    fun w v hlen => foldl_zip_range (fun v kt wt => sha256Round kt v wt) 0 0 k256 w hlen v,
    fun w v hlen => foldl_zip_range (fun v kt wt => sha512Round kt v wt) 0 0 k512 w hlen v⟩

/-! ### Blocks in order (42_engine32.md R210, steps a to d) -/

section
variable {block sched hvec vars : Type} (schedule : block → sched) (init : hvec → vars) (rounds : sched → vars → vars)
  (fold : hvec → vars → hvec)

theorem compress_nil (iv : hvec) : compress schedule init rounds fold [] iv = iv := rfl

theorem compress_concat (bs : List block) (b : block) (iv : hvec) :
    compress schedule init rounds fold (bs ++ [b]) iv =
      fold (compress schedule init rounds fold bs iv) (rounds (schedule b) (init (compress schedule init rounds fold bs iv))) :=
  List.foldl_append

end

/-- Settles O51: all three engines are `compress`. -/
theorem compressChainsBlocks : Obligations.CompressChainsBlocks :=
  ⟨fun bs b iv => ⟨compress_nil _ _ _ _ iv, compress_concat _ _ _ _ bs b iv⟩,
    fun bs b iv => ⟨compress_nil _ _ _ _ iv, compress_concat _ _ _ _ bs b iv⟩,
    fun bs b iv => ⟨compress_nil _ _ _ _ iv, compress_concat _ _ _ _ bs b iv⟩⟩

/-! ### Truncation (42_engine32.md R225; 43_engine64.md R268) -/

/-- The first `k` words, each on four bytes, are the first `4 * k` bytes. -/
theorem serialize32_take {ws : List Word32} {k : Nat} (h : k ≤ ws.length) : serialize32 (ws.take k) = (serialize32 ws).take (4 * k) := by
  have hsplit : serialize32 ws = serialize32 (ws.take k) ++ serialize32 (ws.drop k) := by
    rw [serialize32, serialize32, serialize32, ← List.flatMap_append, List.take_append_drop]
  rw [hsplit, List.take_left' (by rw [serialize32_length, List.length_take_of_le h])]

/-- The first `k` words, each on eight bytes, are the first `8 * k` bytes. -/
theorem serialize64_take {ws : List Word64} {k : Nat} (h : k ≤ ws.length) : serialize64 (ws.take k) = (serialize64 ws).take (8 * k) := by
  have hsplit : serialize64 ws = serialize64 (ws.take k) ++ serialize64 (ws.drop k) := by
    rw [serialize64, serialize64, serialize64, ← List.flatMap_append, List.take_append_drop]
  rw [hsplit, List.take_left' (by rw [serialize64_length, List.length_take_of_le h])]

/-- A State Vector of SHA-2 has eight words (R42). -/
@[simp] theorem Vec8.toList_length {w : Nat} (v : Vec8 w) : v.toList.length = 8 := rfl

/-- Settles O52: seven words are 28 bytes, six words of twice the width are 48. -/
theorem truncationDropsTrailingBytes : Obligations.TruncationDropsTrailingBytes := fun m =>
  ⟨rfl, rfl, serialize32_take (k := 7) (by simp), serialize64_take (k := 6) (by simp)⟩

/-! ### The known answers (examples of R226 to R228, R269 and R270) -/

/-- Settles O54: the kernel evaluates each digest of the one message, from its padding to the bytes. -/
theorem knownAnswersOfAbc : Obligations.KnownAnswersOfAbc :=
  ⟨by decide +kernel, by decide +kernel, by decide +kernel, by decide +kernel, by decide +kernel⟩

end Sys2Proof.Machine

namespace Sys2Proof.Machine

/-! ### The schedule and the tables of the 64-bit engine (43_engine64.md R260, R261, R266) -/

/-- Settles O49: the entries that the recurrence reads are the four that R260 names. -/
theorem sha512ScheduleRecurrence : Obligations.Sha512ScheduleRecurrence := by
  refine fun b => ⟨scheduleOf_length sha512Next 64 b, scheduleOf_block sha512Next 64 b, fun t hfirst hlast => ?_⟩
  obtain ⟨q, hentry, hback⟩ := scheduleOf_next sha512Next 64 b t hfirst hlast
  simp (disch := omega) only [sha512Schedule, hentry, hback, sha512Next]

/-- SHA-256 and SHA-512 share their first 64 round constants, to the width of each (R261). -/
theorem k512_highHalves : (k512.take 64).map (fun k => k.extractLsb' 32 32) = k256 := by
  decide

/-- The initial vectors of SHA-384 and SHA-224 correspond in the low halves, not in the high ones as the constants do (R266). -/
theorem ivSha384_lowHalves : ivSha384.toList.map (fun h => h.extractLsb' 0 32) = ivSha224.toList := by
  decide

/-- Settles O53: the tables are closed lists of words, compared word by word. -/
theorem constantTablesAgree : Obligations.ConstantTablesAgree :=
  ⟨rfl, rfl, k512_highHalves, ivSha384_lowHalves⟩

end Sys2Proof.Machine

namespace Sys2Proof.Machine

/-! ### Where a HASH leads (44_commands.md R304, R311, R344) -/

/-- With LEN within the capacity and a message operand, the HASH of every variant completes with the digest of that operand. -/
theorem exec_hash_of_operand (v : Variant) {s : State} {m : List Byte} (hcap : s.len.toNat ≤ s.cap.toNat)
    (hm : messageOperand s.mem s.len.toNat = some m) : exec v.instr s = .next (s.emitDigest v (hashOf v m)) := by
  rw [exec_hash, execHash_digest v _ s m hcap hm]

/-- On a held message the HASH of every variant completes with the digest of that message. -/
theorem exec_hash_of_holds (v : Variant) {s : State} {m : List Byte} (h : s.HoldsMessage m) (hcap : m.length ≤ s.cap.toNat) :
    exec v.instr s = .next (s.emitDigest v (hashOf v m)) :=
  exec_hash_of_operand v (h.1.trans_le hcap) (messageOperand_of_holds h)

/-- Above the capacity the HASH of every variant takes the error record of CAPACITY. -/
theorem exec_hash_of_capacity (v : Variant) {s : State} (h : s.cap.toNat < s.len.toNat) :
    exec v.instr s = .next (s.raiseCmdError .capacity) := by
  rw [exec_hash, execHash_capacity v _ s h]

/-- A completed HASH leaves what no HASH changes. -/
theorem sameInputs_emitDigest (s : State) (v : Variant) (d : List Byte) : SameInputs s (s.emitDigest v d) :=
  ⟨rfl, rfl, rfl, fun _ => rfl, fun _ => rfl, rfl, rfl⟩

/-- Taking a command error writes the error record of its code (R340, R341). -/
theorem errorRecord_raiseCmdError (s : State) (e : CmdError) : ErrorRecord (errCode e).toNat s (s.raiseCmdError e) := by
  have hstatus : errStatus e = BitVec.ofNat 32 (16 * (errCode e).toNat) := by cases e <;> rfl
  exact ⟨hstatus, fun i => by simp, rfl, rfl, rfl, rfl, rfl, rfl, rfl, rfl⟩

/-- Two buffers that read alike below `n`, all of it in written words, give one message operand. -/
theorem messageOperand_congr {m m' : Memory} {n : Nat}
    (h : ∀ k, k < n → written m (k / 4) = true ∧ written m' (k / 4) = true ∧ readByte m k = readByte m' k) :
    messageOperand m n = messageOperand m' n := by
  have hw : consumedWritten m n = true := (consumedWritten_iff m n).mpr fun k hk => (h k hk).1
  have hw' : consumedWritten m' n = true := (consumedWritten_iff m' n).mpr fun k hk => (h k hk).2.1
  rw [messageOperand, messageOperand, if_pos hw, if_pos hw']
  refine readBytes_congr m m' 0 n fun k hk => ?_
  rw [Nat.zero_add]
  exact (h k hk).2.2

/-- Where every word that a byte below `n` touches was written, there is a message operand. -/
theorem messageOperand_exists {m : Memory} {n : Nat} (h : ∀ k, k < n → written m (k / 4) = true) : ∃ bs, messageOperand m n = some bs := by
  refine Option.ne_none_iff_exists'.mp fun hnone => ?_
  obtain ⟨k, hk, hunwritten⟩ := (messageOperand_eq_none m n).mp hnone
  simp [h k hk] at hunwritten

/-! ### DIGEST as words (20_memory.md R76; 44_commands.md R305 to R309) -/

/-- DIGEST register `i` is the big-endian value of its four bytes. -/
theorem packDigest_getElem (e : List Byte) (i : Fin 16) : (packDigest e)[i] = BitVec.ofNat 32 (beVal ((e.drop (4 * i.val)).take 4)) := by
  simp [packDigest]

/-- A HASH whose digest is the words `ws` leaves them in DIGEST, zeros in the `k` registers after them. -/
theorem exec_hash_words (v : Variant) {s : State} {m : List Byte} {ws : List Word32} {k : Nat} (h : s.HoldsMessage m)
    (hcap : m.length ≤ s.cap.toNat) (hws : hashOf v m = serialize32 ws) (hk : ws.length + k = 16) :
    ∃ t, exec v.instr s = .next t ∧ t.status = hashStatus v ∧ t.digest.toList = ws ++ List.replicate k 0x00000000#32
      ∧ t.faulted = s.faulted ∧ SameInputs s t := by
  refine ⟨_, exec_hash_of_holds v h hcap, rfl, ?_, rfl, sameInputs_emitDigest s v _⟩
  have hlen : 4 * ws.length = v.digestBytes := by rw [← serialize32_length, ← hws, hashOf_length]
  have hpad : 64 - v.digestBytes = 4 * k := by omega
  rw [emitDigest_digest, hws, hpad, packDigest_serialize ws k hk]

/-- The CAPACITY clause that R305 to R309 share. -/
theorem exec_hash_errorRecord (v : Variant) (s : State) (h : s.cap.toNat < s.len.toNat) : ∃ t, exec v.instr s = .next t ∧ ErrorRecord 3 s t :=
  ⟨_, exec_hash_of_capacity v h, errorRecord_raiseCmdError s .capacity⟩

/-! ### The statements on HASH -/

/-- Settles O6: the state after it is `emitDigest`'s. -/
theorem hashCompletesWithDigest : Obligations.HashCompletesWithDigest := fun v s _ h hcap =>
  ⟨_, exec_hash_of_holds v h hcap, rfl, packDigest_getElem _, rfl, sameInputs_emitDigest s v _⟩

/-- Settles O7: the digest is the five words of the State Vector, and the block counts are those of the padded length. -/
theorem hashSha1Result : Obligations.HashSha1Result := by
  refine ⟨rfl, fun _ m h hcap => exec_hash_words .sha1 h hcap rfl rfl, exec_hash_errorRecord .sha1, fun m => ?_⟩
  have hblocks := parse32_length (pad32_length m)
  exact ⟨fun _ => by omega, fun _ => by omega⟩

/-- Settles O8: the digest is the first seven words of the State Vector. -/
theorem hashSha224Result : Obligations.HashSha224Result :=
  ⟨rfl, fun _ _ h hcap => exec_hash_words .sha224 h hcap rfl rfl, exec_hash_errorRecord .sha224⟩

/-- Settles O9: the digest is the eight words of the State Vector. -/
theorem hashSha256Result : Obligations.HashSha256Result :=
  ⟨rfl, fun _ _ h hcap => exec_hash_words .sha256 h hcap rfl rfl, exec_hash_errorRecord .sha256⟩

/-- Settles O10: the digest is the halves of the first six words of the State Vector, and the block counts are those of the padded length. -/
theorem hashSha384Result : Obligations.HashSha384Result := by
  refine ⟨rfl, fun _ m h hcap => exec_hash_words .sha384 h hcap (serialize64_eq _) rfl, exec_hash_errorRecord .sha384, fun m => ?_⟩
  have hblocks := parse64_length (pad64_length m)
  exact ⟨fun _ => by omega, fun _ => by omega⟩

/-- Settles O11: the digest is the halves of the eight words of the State Vector, and no register is left to fill. -/
theorem hashSha512Result : Obligations.HashSha512Result := by
  refine ⟨rfl, fun s m h hcap => ?_, exec_hash_errorRecord .sha512⟩
  obtain ⟨t, hexec, hstatus, hdigest, hframe⟩ := exec_hash_words .sha512 (k := 0) h hcap (serialize64_eq _) rfl
  rw [List.replicate_zero, List.append_nil] at hdigest
  exact ⟨t, hexec, hstatus, hdigest, hframe⟩

/-- Settles O16: the two states have one message operand, and DIGEST and STATUS are made of it and the variant. -/
theorem hashDependsOnlyOnItsMessage : Obligations.HashDependsOnlyOnItsMessage := by
  intro v s₁ s₂ t₁ t₂ hlen hcap₁ hcap₂ hagree hexec₁ hexec₂
  obtain ⟨m, hm₁⟩ := messageOperand_exists fun k hk => (hagree k hk).1
  have hm₂ : messageOperand s₂.mem s₂.len.toNat = some m := by rw [← hlen, ← messageOperand_congr hagree, hm₁]
  obtain rfl := Host.Outcome.next.inj (hexec₁.symm.trans (exec_hash_of_operand v hcap₁ hm₁))
  obtain rfl := Host.Outcome.next.inj (hexec₂.symm.trans (exec_hash_of_operand v hcap₂ hm₂))
  exact ⟨rfl, rfl⟩

/-! ### NOP, CLEAR and the frame of every command (44_commands.md R301 to R303) -/

theorem exec_nop (s : State) : exec .nop s = .next s := rfl

theorem exec_clear (s : State) : exec .clear s = .next s.clearRegs := rfl

/-- A command leaves what the host does next and the last answer. -/
theorem exec_pending_reply {i : Instr} {s t : State} (h : exec i s = .next t) : t.pending = s.pending ∧ t.reply = s.reply := by
  rcases exec_next_cases h with ⟨-, rfl⟩ | ⟨-, rfl⟩ | ⟨v, -, ⟨-, rfl⟩ | ⟨-, -, rfl⟩ | ⟨m, -, -, rfl⟩⟩ <;> exact ⟨rfl, rfl⟩

/-- NOP and CLEAR lead to the same state or to the cleared one. -/
theorem eq_or_eq_clearRegs_of_exec {i : Instr} {s t : State} (h : exec i s = .next t) (hi : i = .nop ∨ i = .clear) : t = s ∨ t = s.clearRegs := by
  rcases hi with rfl | rfl
  · exact .inl (Host.Outcome.next.inj ((exec_nop s).symm.trans h)).symm
  · exact .inr (Host.Outcome.next.inj ((exec_clear s).symm.trans h)).symm

/-- Settles O17: each part is the frame of every command, and what NOP and CLEAR alone leave is read off the two states they lead to. -/
theorem commandFrame : Obligations.CommandFrame := by
  intro i s t h
  obtain ⟨hcap, hmem⟩ := exec_cap_mem h
  obtain ⟨hpending, hreply⟩ := exec_pending_reply h
  refine ⟨hcap, hmem, fun k => by rw [hmem], fun j => by rw [hmem], hpending, hreply, (exec_len h).resolve_right, fun hi => ?_⟩
  rcases eq_or_eq_clearRegs_of_exec h hi with rfl | rfl <;> exact ⟨rfl, rfl, rfl, rfl⟩

/-- Settles O4: a word with OP = 0 and a higher bit set fails the decoder's check of those bits. -/
theorem nopChangesNothing : Obligations.NopChangesNothing := by
  refine ⟨rfl, exec_nop, fun c hop hhigh => ?_⟩
  rw [decode_eq, if_pos hop, if_neg hhigh]

/-- Settles O5: the state after it is `clearRegs`'s, and after reset the three registers are zero already. -/
theorem clearZeroesStatusLenDigest : Obligations.ClearZeroesStatusLenDigest := by
  refine ⟨rfl, rfl, fun s => ⟨s.clearRegs, exec_clear s, rfl, rfl, fun i => ?_, rfl, fun _ => rfl, fun _ => rfl, rfl, rfl, rfl, rfl, rfl, rfl, rfl⟩⟩
  simp

/-! ### The write of a command word to CMD (20_memory.md R84; 44_commands.md R300) -/

/-- The service of the write of a word to CMD performs its command, and the bus answers OK. -/
theorem serve_commandEvent (c : Word32) (s : State) : serve (commandEvent c) s = answer okWrite (performCommand c s) := rfl

/-- A whole command word, given by its number, is handed over as it is. -/
theorem withFetchWord_toNat (s : State) (c : Word32) : s.withFetchWord 32 c.toNat = s.asked (commandEvent c) := by
  rw [State.withFetchWord, Nat.mod_eq_of_lt c.isLt, BitVec.ofNat_toNat, BitVec.setWidth_eq]

/-- Settles O29: both steps serve the write of the word to CMD. -/
theorem stepRunsDecodedCommand : Obligations.StepRunsDecodedCommand := by
  intro s c i hdec
  have hserve : ∀ u, serve (commandEvent c) u = answer okWrite (exec i u) := fun u => by
    rw [serve_commandEvent, performCommand_instr u hdec]
  refine ⟨fun rest hp => (step_pending hp).trans (hserve _), ?_⟩
  rw [withFetchWord_toNat, step_asked]
  exact hserve s

end Sys2Proof.Machine

namespace Sys2Proof

/-! ### The decoder by the fields of a command word (30_encoding.md R100 to R104; 60_exceptions.md R342, R343) -/

/-- R342's three cases: OP reserved, OP of NOP or CLEAR with a higher bit set, OP of HASH with a reserved bit set. -/
def IllegalFields (c : Word32) : Prop :=
  c.toNat % 256 ∉ [0, 1, 2] ∨ (c.toNat % 256 ∈ [0, 2] ∧ c.toNat / 256 ≠ 0) ∨ (c.toNat % 256 = 1 ∧ c.toNat / 2048 ≠ 0)

theorem decode_illegal_of_fields {c : Word32} (h : IllegalFields c) : decode c = .illegal := by
  simp only [IllegalFields, List.mem_cons, List.not_mem_nil, or_false] at h
  rw [decode_eq]
  rcases h with hop | ⟨hop | hop, hhigh⟩ | ⟨hop, hres⟩
  · rw [if_neg (by omega), if_neg (by omega), if_neg (by omega)]
  · rw [if_pos hop, if_neg hhigh]
  · rw [if_neg (by omega), if_pos hop, if_neg hhigh]
  · rw [if_neg (by omega), if_neg (by omega), if_pos hop, if_neg hres]

theorem varField_toNat (c : Word32) : (varField c).toNat = c.toNat / 256 % 8 := by
  rw [varField, BitVec.extractLsb'_toNat, Nat.shiftRight_eq_div_pow]

/-- Of a word with OP = HASH and no reserved bit set, VAR alone decides. -/
theorem decode_eq_decodeHash {c : Word32} (hop : c.toNat % 256 = 1) (hres : c.toNat / 2048 = 0) : decode c = decodeHash (varField c) := by
  have hhash : opField c = opHash := (opField_eq c 1 (by norm_num)).mpr hop
  rw [decode, hhash, if_neg (by decide), if_neg (by decide), if_pos rfl, if_pos ((resField_eq_zero c).mpr hres)]

/-- VAR 5, 6 and 7 are reserved (R102). -/
theorem decodeHash_reserved : ∀ {v : BitVec 3}, 5 ≤ v.toNat → decodeHash v = .badVariant := by decide

/-- Each variant's code selects its HASH (R102). -/
theorem decodeHash_code (v : Variant) : decodeHash v.code = .instr v.instr := by
  cases v <;> rfl

/-- Every VAR below 5 is the code of a variant (R102). -/
theorem exists_code_eq {v : BitVec 3} (h : v.toNat < 5) : ∃ w : Variant, w.code = v := by
  obtain h | h | h | h | h : v.toNat = 0 ∨ v.toNat = 1 ∨ v.toNat = 2 ∨ v.toNat = 3 ∨ v.toNat = 4 := by omega
  · exact ⟨.sha1, (BitVec.eq_of_toNat_eq h).symm⟩
  · exact ⟨.sha224, (BitVec.eq_of_toNat_eq h).symm⟩
  · exact ⟨.sha256, (BitVec.eq_of_toNat_eq h).symm⟩
  · exact ⟨.sha384, (BitVec.eq_of_toNat_eq h).symm⟩
  · exact ⟨.sha512, (BitVec.eq_of_toNat_eq h).symm⟩

theorem decode_badVariant_of_fields {c : Word32} (hop : c.toNat % 256 = 1) (hres : c.toNat / 2048 = 0) (hvar : 5 ≤ c.toNat / 256 % 8) :
    decode c = .badVariant := by
  rw [decode_eq_decodeHash hop hres]
  exact decodeHash_reserved (by rwa [varField_toNat])

theorem decode_hash_of_fields {c : Word32} (hop : c.toNat % 256 = 1) (hres : c.toNat / 2048 = 0) (hvar : c.toNat / 256 % 8 < 5) :
    ∃ v : Variant, decode c = .instr v.instr := by
  obtain ⟨v, hv⟩ := exists_code_eq (v := varField c) (by rwa [varField_toNat])
  exact ⟨v, by rw [decode_eq_decodeHash hop hres, ← hv, decodeHash_code]⟩

end Sys2Proof

namespace Sys2Proof.Machine

/-! ### The error record after the write of a command word (60_exceptions.md R341 to R345) -/

/-- Where the command of the word leads to `t`, its write to CMD leads to `t` with the answer OK (R300). -/
theorem step_cmdWrite {c : Word32} {s t : State} (h : performCommand c s = .next t) :
    step (s.asked (.bus (.write 0x0000#16 c))) = .next (t.setReply okWrite) :=
  (step_write_some (busTarget_cmd _)).trans (congrArg (answer okWrite) h)

/-- A command that ends in a command error leaves its error record, and the bus answers OK all the same (R300, R341). -/
theorem step_cmdWrite_error {c : Word32} {s : State} {e : CmdError} (h : performCommand c s = .next (s.raiseCmdError e)) :
    ∃ t, step (s.asked (.bus (.write 0x0000#16 c))) = .next t ∧ ErrorRecord (errCode e).toNat s t ∧ t.reply = some okWrite :=
  ⟨_, step_cmdWrite h, errorRecord_raiseCmdError s e, rfl⟩

/-- Settles O13: the state after it is `raiseCmdError`'s. -/
theorem hashAboveCapacityIsError : Obligations.HashAboveCapacityIsError := fun _ s h =>
  ⟨_, exec_hash_of_capacity _ h, errorRecord_raiseCmdError s .capacity, rfl⟩

/-- Settles O18: a word with such fields decodes to Illegal. -/
theorem illegalWordIsError : Obligations.IllegalWordIsError := fun s _ h =>
  step_cmdWrite_error (performCommand_illegal s (decode_illegal_of_fields h))

/-- Settles O19: a word with such fields decodes to BadVariant, and only the three words do. -/
theorem badVariantIsError : Obligations.BadVariantIsError := by
  rintro s c ⟨hop, hres, hvar⟩
  have hreserved : 5 ≤ c.toNat / 256 % 8 := by
    simp only [List.mem_cons, List.not_mem_nil, or_false] at hvar
    omega
  have hdec : decode c = .badVariant := decode_badVariant_of_fields hop hres hreserved
  exact ⟨(decode_eq_badVariant_iff c).mp hdec, step_cmdWrite_error (performCommand_badVariant s hdec)⟩

/-- Settles O20, in the order of the checks: the decoder's two rejections, then CAPACITY, then the model fault. -/
theorem errorPriority : Obligations.ErrorPriority := by
  intro s c
  refine ⟨fun hillegal => ?_, fun hop hres hvar => ?_, fun hop hres hvar => ?_⟩
  · have hrun := performCommand_illegal s (decode_illegal_of_fields hillegal)
    exact ⟨_, step_cmdWrite hrun, errorRecord_raiseCmdError s .illegalCmd⟩
  · have hrun := performCommand_badVariant s (decode_badVariant_of_fields hop hres hvar)
    exact ⟨_, step_cmdWrite hrun, errorRecord_raiseCmdError s .badVariant⟩
  · obtain ⟨v, hdec⟩ := decode_hash_of_fields hop hres hvar
    have hrun : performCommand c s = exec v.instr s := performCommand_instr s hdec
    refine ⟨fun habove => ?_, fun hwithin hunwritten => ?_⟩
    · exact ⟨_, step_cmdWrite (hrun.trans (exec_hash_of_capacity v habove)), errorRecord_raiseCmdError s .capacity⟩
    · exact ⟨_, step_cmdWrite (hrun.trans (exec_hash_of_consumesUnwritten v ⟨hwithin, hunwritten⟩)), modelFault_faulted s⟩

end Sys2Proof.Machine

namespace Sys2Proof.Machine

/-! ### The use sequence (70_reset_and_hazards.md R372, R374) -/

/-- A state holds a message where LEN is its length and a HASH of that length would consume it. -/
theorem holdsMessage_of_operand {s : State} {m : List Byte} (hlen : s.len.toNat = m.length) (hm : messageOperand s.mem m.length = some m) :
    s.HoldsMessage m :=
  ⟨hlen, ((messageOperand_eq_some _ _ _).mp hm).2⟩

/-- The words of a byte string end within the buffer where the string does: the capacity is a multiple of 4 (R5, R108). -/
theorem loadWords_fit {cap : Word32} {m : List Byte} (hcap : Config.LegalMsgCap cap) (hm : m.length ≤ cap.toNat) :
    4 * (loadWords m).length ≤ cap.toNat := by
  obtain ⟨-, -, hwords⟩ := hcap
  rw [loadWords_length]
  omega

/-- LOADMSG, run from any state with a legal capacity: the message is held, and CAP, `faulted` and the host's further events are as before (R108, R372). -/
theorem run_loadMsg {s : State} {m : List Byte} {rest : List HostEvent} (n : Nat) (hcap : Config.LegalMsgCap s.cap) (hm : m.length ≤ s.cap.toNat)
    (hp : s.pending = (expandLine (.loadMsg m)).map .bus ++ rest) :
    ∃ t, Sys2Proof.core.run ((m.length + 3) / 4 + (n + 1)) s = Sys2Proof.core.run n t
      ∧ t.pending = rest ∧ t.cap = s.cap ∧ t.faulted = s.faulted ∧ t.HoldsMessage m := by
  have hfit : 4 * (0 + (loadWords m).length) ≤ s.cap.toNat := by
    rw [Nat.zero_add]
    exact loadWords_fit hcap hm
  obtain ⟨-, hbound, -⟩ := hcap
  have hlen : (BitVec.ofNat 32 m.length).toNat = m.length := by
    rw [BitVec.toNat_ofNat]
    omega
  rw [expandLine, List.map_append, List.append_assoc] at hp
  obtain ⟨r, hwords⟩ := run_msgWrites (loadWords m) 0 (n + 1) s _ hbound hfit hp
  rw [loadWords_length] at hwords
  refine ⟨_, hwords.trans (run_step (step_lenWrite { s.storeWords (loadWords m) with pending := rest, reply := r } _)), rfl,
    foldl_writeMsgWord_cap _ s, foldl_writeMsgWord_faulted _ s, ?_⟩
  exact holdsMessage_of_operand hlen (loadedMessageIsOperand s m)

/-- The step that serves the HASH word of a variant on a held message completes with its digest (R304). -/
theorem step_hashWord (v : Variant) {s : State} {m : List Byte} {rest : List HostEvent} (hp : s.pending = commandEvent (encode v.instr) :: rest)
    (h : s.HoldsMessage m) (hm : m.length ≤ s.cap.toNat) :
    step s = .next (((s.taken rest).emitDigest v (hashOf v m)).setReply okWrite) := by
  have hexec : exec v.instr (s.taken rest) = .next ((s.taken rest).emitDigest v (hashOf v m)) := exec_hash_of_holds v h hm
  rw [step_pending hp, serve_commandEvent, performCommand_instr _ (decode_encode v.instr), hexec]
  rfl

/-- The events of LOADMSG and HASH: the writes of LOADMSG, then the write of the HASH word (R107, R108). -/
theorem withScript_loadMsg_hash_pending (s : State) (m : List Byte) (v : Variant) :
    (s.withScript [.loadMsg m, .hash v]).pending = (expandLine (.loadMsg m)).map .bus ++ commandEvent (encode v.instr) :: s.pending := by
  simp [State.withScript, scriptEvents, expandLine, commandEvent]

/-- Settles O28: LOADMSG leads to a state that holds the message, and there one more step serves the HASH word. -/
theorem useSequenceGivesDigest : Obligations.UseSequenceGivesDigest := by
  intro v s m hcap hm
  obtain ⟨u, hrun, hpending, hcapu, hfaulted, hholds⟩ :=
    run_loadMsg (s := s.withScript [.loadMsg m, .hash v]) 1 hcap hm (withScript_loadMsg_hash_pending s m v)
  have hstep := step_hashWord v hpending hholds (by rw [hcapu]; exact hm)
  exact ⟨_, hrun.trans (run_step hstep), rfl, hholds.1, hfaulted, rfl, packDigest_getElem _⟩

/-! ### The reset event (70_reset_and_hazards.md R370) -/

theorem step_reset (s : State) : step (s.asked .reset) = .next s.resetEvent := rfl

/-- Settles O32: the state after it is `resetEvent`'s, and on its empty buffer no word is written. -/
theorem resetEventSetsEveryValue : Obligations.ResetEventSetsEveryValue := by
  intro s
  have hdigest : ∀ i : Fin 16, s.resetEvent.digest[i] = 0x00000000#32 := fun i => by simp
  exact ⟨s.resetEvent, step_reset s, rfl, rfl, hdigest, fun _ => rfl, rfl, rfl⟩

end Sys2Proof.Machine
